-- ==== Sys2Proof/Word.lean ====
section
/-! DEFINITION. The machine word and the fixed sizes of the hardware (spec/00_scope.md R2). -/

namespace Sys2Proof

/-- "Word: the machine's native 16-bit signed data/instruction unit" (R2): a 16-bit pattern. -/
abbrev Word := BitVec 16

/-- A byte exists only outside the machine, in the image files (R34, R196). -/
abbrev Byte := BitVec 8

/-- `MEMWORDS`: the number of words of the one address space (R2, R30). -/
abbrev memWords : Nat := 65536

end Sys2Proof
end

