-- ==== Sys2Proof/Config.lean ====
section
/-! DEFINITION. The configuration record of a run (spec/00_scope.md R3, decision D1): four named addresses that the
source does not number. It is a field of State, so that a claim about every state is a claim about every configuration
(notes/assumptions/1.md). The spec leaves no value of an instruction undefined, so there is no free value here. -/

namespace Sys2Proof

/-- `Cfg`: the parameters of R3. The fifth address, `KBD_ADDR`, is fixed by `videoBase` (Machine/Ops.lean). -/
structure Cfg where
  /-- `PC_INIT`: the reset value of `$pc` and the load address of the program image. -/
  pcInit : Word
  /-- `SP_INIT`: the reset value of `$sp`. -/
  spInit : Word
  /-- `GP_INIT`: the reset value of `$gp` and the load address of the data image. -/
  gpInit : Word
  /-- `VIDEO_BASE`: the first address of the video region, which runs to 0xFFFF. -/
  videoBase : Word
deriving DecidableEq, Repr

/-- The reference test configuration T of spec/95_test_vectors.md. DESIGN CHOICE, unsafe: its numbers are the spec's own
illustration, used only to give `State.reset` a value (notes/assumptions/1.md). -/
def Cfg.reference : Cfg :=
  { pcInit := 0x0100#16, spInit := 0xEFFF#16, gpInit := 0x4000#16, videoBase := 0xF830#16 }

end Sys2Proof
end

