-- ==== Sys2Proof/Syntax.lean ====
section
/-! DEFINITION. The sixteen instructions, one constructor per row of spec/opcode_table.json, with the operands the
interpreter reads (spec/30_encoding.md R54), and the codec's own input, a logical instruction with integer fields (R55). -/

namespace Sys2Proof

/-- A 4-bit register field: it may name any of the 16 registers (spec/10_state.md R13). -/
abbrev Reg := BitVec 4

/-- The 8-bit immediate of `lui` and `ori`, unsigned 0..255 (R61). -/
abbrev Imm8 := BitVec 8

/-- An instruction as the execute step reads it: the operands in the order of R54, field A first. -/
inductive Instr where
  | nop
  | lw (rd ra : Reg)
  | sw (rs ra : Reg)
  | beq (ra rb rc : Reg)
  | bne (ra rb rc : Reg)
  | lui (rd : Reg) (imm : Imm8)
  | ori (rd : Reg) (imm : Imm8)
  | sgt (rd rb rc : Reg)
  | seq (rd rb rc : Reg)
  | nand (rd rb rc : Reg)
  | sll (rd rb rc : Reg)
  | srl (rd rb rc : Reg)
  | add (rd rb rc : Reg)
  | sub (rd rb rc : Reg)
  | mul (rd rb rc : Reg)
  | div (rd rb rc : Reg)
deriving DecidableEq, Repr

/-- The input of the codec's `encode` (R55): an opcode number and field values, each any integer. A field that the
opcode's shape does not use is not read. -/
structure Logical where
  op : Int
  a : Int := 0
  b : Int := 0
  c : Int := 0
  imm : Int := 0
deriving DecidableEq, Repr

end Sys2Proof
end

