-- ==== Sys2Proof/WellFormed.lean ====
section
/-! DEFINITION. What makes a logical instruction, a configuration and a pair of images well formed. A term of `Instr` is
well formed by its types (4-bit register fields and an 8-bit immediate hold exactly the values the shapes admit, R54,
R61), so the checks are on what can be ill formed: integer field values, the addresses of R3, the image sizes of R192. -/

namespace Sys2Proof

/-- An integer that fits a 4-bit register field (spec/30_encoding.md R57: "register indices 0..15"). -/
def fitsReg (n : Int) : Bool := decide (0 ≤ n) && decide (n < 16)

/-- An integer that fits the immediate field (R57: "immediates 0..255"). -/
def fitsImm (n : Int) : Bool := decide (0 ≤ n) && decide (n < 256)

/-- A valid logical instruction (R54, R57): a known opcode, the shape's fields in range, the others 0. -/
def Logical.wf (l : Logical) : Bool :=
  match l.op with
  | 0 => l.a == 0 && l.b == 0 && l.c == 0 && l.imm == 0
  | 1 | 2 => fitsReg l.a && fitsReg l.b && l.c == 0 && l.imm == 0
  | 5 | 6 => fitsReg l.a && l.b == 0 && l.c == 0 && fitsImm l.imm
  | 3 | 4 | 7 | 8 | 9 | 10 | 11 | 12 | 13 | 14 | 15 =>
    fitsReg l.a && fitsReg l.b && fitsReg l.c && l.imm == 0
  | _ => false

/-- The legality of a configuration (spec/00_scope.md R3): `1 <= VIDEO_BASE <= 0xFFFF`. -/
def Cfg.wf (c : Cfg) : Bool := decide (1 ≤ c.videoBase.toNat)

/-- An image of `len` words at `base` does not pass 0xFFFF (spec/70_reset_and_hazards.md R192). -/
def imageFits (base : Word) (len : Nat) : Bool := decide (base.toNat + len ≤ memWords)

end Sys2Proof
end

