-- ==== Sys2Proof/Decode.lean ====
section
/-! DEFINITION. The InstructionCodec: decode, total on every word, and encode, written from the encoding tables of
spec/30_encoding.md (R50 to R61). A refusal of bytes exists only in the image file reader (Machine/Load.lean), since
every 16-bit word is a defined instruction (R60). -/

namespace Sys2Proof

/-- `decode(word)` of R56: the four 4-bit fields. -/
structure Fields where
  opcode : BitVec 4
  a : BitVec 4
  b : BitVec 4
  c : BitVec 4
deriving DecidableEq, Repr

/-- `w[15:12]` (R51). -/
def opcodeField (w : Word) : BitVec 4 := w.extractLsb' 12 4

/-- `w[11:8]` (R51). -/
def aField (w : Word) : Reg := w.extractLsb' 8 4

/-- `w[7:4]` (R51). -/
def bField (w : Word) : Reg := w.extractLsb' 4 4

/-- `w[3:0]` (R51). -/
def cField (w : Word) : Reg := w.extractLsb' 0 4

/-- `imm(w) = w[7:0]`, the unsigned immediate of I-type words (R53, R56, R61). -/
def immField (w : Word) : Imm8 := w.extractLsb' 0 8

/-- The codec's `decode` (R56): total, it returns all four fields of every word. -/
def decodeFields (w : Word) : Fields :=
  { opcode := opcodeField w, a := aField w, b := bField w, c := cField w }

/-- The instruction a word executes as (R58): selected by `w[15:12]` and by nothing else, the fields its shape does not
use ignored (R59). The last arm is the source's fallback of R60, which no 4-bit opcode reaches. -/
def decode (w : Word) : Instr :=
  match (opcodeField w).toNat with
  | 0 => .nop
  | 1 => .lw (aField w) (bField w)
  | 2 => .sw (aField w) (bField w)
  | 3 => .beq (aField w) (bField w) (cField w)
  | 4 => .bne (aField w) (bField w) (cField w)
  | 5 => .lui (aField w) (immField w)
  | 6 => .ori (aField w) (immField w)
  | 7 => .sgt (aField w) (bField w) (cField w)
  | 8 => .seq (aField w) (bField w) (cField w)
  | 9 => .nand (aField w) (bField w) (cField w)
  | 10 => .sll (aField w) (bField w) (cField w)
  | 11 => .srl (aField w) (bField w) (cField w)
  | 12 => .add (aField w) (bField w) (cField w)
  | 13 => .sub (aField w) (bField w) (cField w)
  | 14 => .mul (aField w) (bField w) (cField w)
  | 15 => .div (aField w) (bField w) (cField w)
  | _ => .nop

/-- `encode_R` of R55: four integers, each masked to its 4-bit slot (negative ones by their two's complement low bits),
packed most significant first (R51, R52). -/
def encodeR (op a b c : Int) : Word :=
  BitVec.ofInt 4 op ++ BitVec.ofInt 4 a ++ BitVec.ofInt 4 b ++ BitVec.ofInt 4 c

/-- `encode_I` of R55: the immediate masked to 8 bits (R53). -/
def encodeI (op a imm : Int) : Word :=
  BitVec.ofInt 4 op ++ BitVec.ofInt 4 a ++ BitVec.ofInt 8 imm

/-- `encode` of R55 on integer fields: the opcode number, masked, chooses the shape of R54; a field the shape does not
use is encoded as 0. -/
def Logical.encode (l : Logical) : Word :=
  match (BitVec.ofInt 4 l.op).toNat with
  | 0 => encodeR 0 0 0 0
  | 1 | 2 => encodeR l.op l.a l.b 0
  | 5 | 6 => encodeI l.op l.a l.imm
  | _ => encodeR l.op l.a l.b l.c

/-- The logical instruction of an `Instr`: its opcode number (R58) and its fields (R54). -/
def Instr.toLogical : Instr → Logical
  | .nop => { op := 0 }
  | .lw rd ra => { op := 1, a := rd.toNat, b := ra.toNat }
  | .sw rs ra => { op := 2, a := rs.toNat, b := ra.toNat }
  | .beq ra rb rc => { op := 3, a := ra.toNat, b := rb.toNat, c := rc.toNat }
  | .bne ra rb rc => { op := 4, a := ra.toNat, b := rb.toNat, c := rc.toNat }
  | .lui rd imm => { op := 5, a := rd.toNat, imm := imm.toNat }
  | .ori rd imm => { op := 6, a := rd.toNat, imm := imm.toNat }
  | .sgt rd rb rc => { op := 7, a := rd.toNat, b := rb.toNat, c := rc.toNat }
  | .seq rd rb rc => { op := 8, a := rd.toNat, b := rb.toNat, c := rc.toNat }
  | .nand rd rb rc => { op := 9, a := rd.toNat, b := rb.toNat, c := rc.toNat }
  | .sll rd rb rc => { op := 10, a := rd.toNat, b := rb.toNat, c := rc.toNat }
  | .srl rd rb rc => { op := 11, a := rd.toNat, b := rb.toNat, c := rc.toNat }
  | .add rd rb rc => { op := 12, a := rd.toNat, b := rb.toNat, c := rc.toNat }
  | .sub rd rb rc => { op := 13, a := rd.toNat, b := rb.toNat, c := rc.toNat }
  | .mul rd rb rc => { op := 14, a := rd.toNat, b := rb.toNat, c := rc.toNat }
  | .div rd rb rc => { op := 15, a := rd.toNat, b := rb.toNat, c := rc.toNat }

/-- The one word of an instruction (R50, R55), canonical: unused fields 0 (R59). -/
def encode (i : Instr) : Word := i.toLogical.encode

/-- The mask-and-match test of the opcode map (R58): `w & 0xF000 == opcode << 12`. -/
def selects (opcode : BitVec 4) (w : Word) : Bool := (w &&& 0xF000#16) == (opcode.setWidth 16 <<< 12)

/-- The decoder on a row of spec/opcode_table.json: the row's bits are the one 16-bit word of the instruction (R50). -/
def decodeTableWord (nbits w : Nat) : Option Instr :=
  if nbits ≤ 16 then some (decode (BitVec.ofNat 16 (w % 2 ^ nbits))) else none

end Sys2Proof
end

