-- ==== Sys2Proof/Machine/State.lean ====
section
/-! DEFINITION. The machine's whole state as plain data (spec/10_state.md R10 to R26), the reasons it stops, and its
value after reset. The operations over it stand in Machine/Ops.lean and Machine/Flags.lean. -/

namespace Sys2Proof.Machine

/-- Why the machine halted (R19). -/
inductive Halt where
  /-- the normal end: at the start of a cycle the pc was outside the program region (spec/60_exceptions.md R165) -/
  | pcOutOfProgram
  /-- the one exception, with the word address of the faulting `div` (R160, R161) -/
  | divideByZero (a : Word)
deriving DecidableEq, Repr

/-- The run status (R19). `halted` is terminal (R167). -/
inductive Status where
  | running
  | halted (why : Halt)
deriving DecidableEq, Repr

/-- The output events (spec/60_exceptions.md R173): the display side of the video device. -/
inductive Event where
  /-- `VideoWrite(addr, value)`: a store to the video region (R171) -/
  | videoWrite (addr value : Word)
  /-- `Render(snapshot)`: the words of the video region, VIDEO_BASE first (R172) -/
  | render (snapshot : List Word)
deriving DecidableEq, Repr

/-- Memory: the words that differ from what an unlisted address reads as, keyed by word address. The cell is the
hardware's addressing unit, a 16-bit word (spec/20_memory.md R30, R33, R34: there are no bytes in the machine). The
canonical form is `Memory.wf` (Machine/Ops.lean). See notes/assumptions/4.md. -/
abbrev Memory := List (Nat × Word)

/-- The whole state (R10, R18, R19, R21; `cfg` and `progLen` are the run's constants of spec/00_scope.md R3). -/
structure State where
  /-- `x[0..15]`; `x[2]` is the live program counter (R10, R14) -/
  x : Vector Word 16
  /-- `M[0..65535]` (R21) -/
  mem : Memory
  /-- whether the last keyboard poll had a character (R18) -/
  keyboardHasChar : Bool
  /-- set by a video store, cleared by the render of the same cycle (R18) -/
  displayDirty : Bool
  /-- running or halted (R19) -/
  status : Status
  /-- every event emitted since reset, oldest first (R173) -/
  events : List Event
  /-- the configuration: constant during a run (R3) -/
  cfg : Cfg
  /-- `PROG_LEN`: the number of loaded program words, constant during a run (R3, R192) -/
  progLen : Nat
  /-- THE MODEL'S OWN field: the host's answers to the coming keyboard polls, next one first; a missing answer is
  `none` (R4, R80, R175; notes/assumptions/2.md) -/
  kbdAnswers : List (Option Word)
deriving DecidableEq, Repr

/-- The reasons `step` stops. -/
inductive Fault where
  /-- raised by `cycle` on a machine that has halted: "a halted machine takes no further cycle" (R167). Safe: nothing is
  claimed to happen after the end of a run (notes/assumptions/3.md). -/
  | halted (why : Halt)
deriving DecidableEq, Repr

/-- The reasons an instruction is refused. -/
inductive Refusal where
  /-- raised by `exec` for an instruction that has no meaning yet, by its mnemonic. Safe. No arm raises it. -/
  | notModelled (mnemonic : String)
deriving DecidableEq, Repr

/-- The state after reset and before any image is loaded, under a configuration (R23 to R26): `x[2]`, `x[4]`, `x[5]` at
the three init addresses, every other register, flag and memory word zero, running, no events. The zeros are the spec's
decision D12 (DESIGN CHOICE, unsafe: notes/assumptions/5.md). -/
def State.resetWith (cfg : Cfg) : State :=
  { x := #v[0#16, 0#16, cfg.pcInit, 0#16, cfg.spInit, cfg.gpInit, 0#16, 0#16,
            0#16, 0#16, 0#16, 0#16, 0#16, 0#16, 0#16, 0#16]
    mem := []
    keyboardHasChar := false
    displayDirty := false
    status := .running
    events := []
    cfg := cfg
    progLen := 0
    kbdAnswers := [] }

/-- The machine right after reset, no image loaded, under the spec's reference configuration T
(notes/assumptions/1.md, 21.md). -/
def State.reset : State := State.resetWith Cfg.reference

end Sys2Proof.Machine
end

