-- ==== Sys2Proof/Machine/Ops.lean ====
section
/-! DEFINITION. The named operations over words, registers and memory (the pseudocode primitives of spec/00_scope.md
section 5), and taking the machine's one exception. Each register has one home and every access goes through
`State.reg` and `State.setReg`. -/

namespace Sys2Proof.Machine

/-- `u(v)`: the pattern read as unsigned, 0..65535. -/
abbrev uval (v : Word) : Nat := v.toNat

/-- `s(v)`: the pattern read as two's complement signed, -32768..32767. -/
abbrev sval (v : Word) : Int := v.toInt

/-- `wrap16(n)`: the 16-bit pattern congruent to `n` modulo 65536. -/
def wrap16 (n : Int) : Word := BitVec.ofInt 16 n

/-- `zext_8(v)`: the 8-bit value zero-extended to 16 bits. -/
def zext8 (v : Imm8) : Word := v.setWidth 16

/-- Register 2, the program counter (spec/10_state.md R14). -/
def pcReg : Reg := 2#4

/-- `x[i]`: no register is hardwired (R12), so a read is a plain read at every index. -/
def State.reg (s : State) (r : Reg) : Word := s.x[r.toNat]'r.isLt

/-- `x[i] <- v`: a plain write at every index, 0 and 2 included (R12, R13). -/
def State.setReg (s : State) (r : Reg) (v : Word) : State := { s with x := s.x.set r.toNat v r.isLt }

/-- `pc`, another name for `x[2]` (R14). -/
def State.pc (s : State) : Word := s.reg pcReg

/-- `pc <- t` is `x[2] <- t` (R14). -/
def State.setPc (s : State) (v : Word) : State := s.setReg pcReg v

/-- Step 4 of the cycle: `x[2] <- wrap16(u(x[2]) + 1)` (R15, R16). -/
def State.advancePc (s : State) : State := s.setPc (wrap16 (uval s.pc + 1))

/-- What a word of memory that nothing has written reads as (R26, decision D12: DESIGN CHOICE, unsafe,
notes/assumptions/4.md). -/
def unlistedWord : Word := 0#16

/-- The word memory holds at a word address. -/
def Memory.read (m : Memory) (a : Nat) : Word :=
  match m with
  | [] => unlistedWord
  | (b, v) :: rest => if b = a then v else Memory.read rest a

/-- Memory with no entry for an address. -/
def Memory.erase (m : Memory) (a : Nat) : Memory := m.filter fun cell => cell.1 != a

/-- An entry put in before the first one of a greater address. -/
def Memory.insert (m : Memory) (a : Nat) (v : Word) : Memory :=
  match m with
  | [] => [(a, v)]
  | (b, w) :: rest => if a < b then (a, v) :: (b, w) :: rest else (b, w) :: Memory.insert rest a v

/-- One word stored; writing what an unlisted address reads as removes the entry, so equal memories are equal lists. -/
def Memory.write (m : Memory) (a : Nat) (v : Word) : Memory :=
  if v = unlistedWord then m.erase a else (m.erase a).insert a v

/-- The canonical form: addresses inside the space, strictly rising, and no entry equal to what an unlisted address
reads as. -/
def Memory.wf (m : Memory) : Bool :=
  match m with
  | [] => true
  | (a, v) :: rest =>
    decide (a < memWords) && v != unlistedWord && (rest.all fun cell => decide (a < cell.1)) && Memory.wf rest

/-- `M[a]`: every access moves one word and every address is valid (spec/20_memory.md R31, R33, R36); a read has no
side effect (R37). -/
def State.load (s : State) (a : Word) : Word := s.mem.read (uval a)

/-- `M[a] <- v` without a device effect: what the loader and the keyboard poll do (spec/60_exceptions.md R171). -/
def State.store (s : State) (a v : Word) : State := { s with mem := s.mem.write (uval a) v }

/-- `emit e`: append an event to the output stream (R173). -/
def State.emit (s : State) (e : Event) : State := { s with events := s.events ++ [e] }

/-- `KBD_ADDR = VIDEO_BASE - 1` (spec/00_scope.md R3). -/
def kbdAddr (c : Cfg) : Word := wrap16 ((uval c.videoBase : Int) - 1)

/-- Whether an address lies in the video region `[VIDEO_BASE, 0xFFFF]` (spec/60_exceptions.md R171). -/
def inVideo (c : Cfg) (a : Word) : Bool := decide (uval c.videoBase ≤ uval a)

/-- The program region `[PC_INIT, PC_INIT + PROG_LEN)`, compared unsigned and without wrapping (R165). -/
def State.inProgram (s : State) (a : Word) : Bool :=
  decide (uval s.cfg.pcInit ≤ uval a) && decide (uval a < uval s.cfg.pcInit + s.progLen)

/-- The machine stopped with a reason; nothing else changes (R161, R165). -/
def State.halt (s : State) (why : Halt) : State := { s with status := .halted why }

/-- TAKING THE EXCEPTION, `raise DivideByZero(a)` (R161), `a` the address of the faulting instruction,
`wrap16(x[2] - 1)` since the pc is already advanced (R160): the status records it and everything else is left as it was
found, `x[2]` still advanced. There is no handler, no saved register, no mode and no return from it (R162). -/
def State.raiseDivideByZero (s : State) : State := s.halt (.divideByZero (wrap16 ((uval s.pc : Int) - 1)))

end Sys2Proof.Machine
end

