-- ==== Sys2Proof/Machine/Alu.lean ====
section
/-! DEFINITION. The functions of two words that the R-type instructions compute: comparisons, logic, shifts, arithmetic
(spec/44_compare.md, 45_logic_shift.md, 46_arithmetic.md). Each computes exactly and narrows by `wrap16` at the end. -/

namespace Sys2Proof.Machine

/-- The word 1 or the word 0. -/
def wordOfBool (p : Bool) : Word := if p then 1#16 else 0#16

/-- `s(b) > s(c)`, signed (R120, D24: notes/assumptions/13.md). -/
def aluSgt (b c : Word) : Word := wordOfBool (decide (sval c < sval b))

/-- All 16 bits equal (R121, D9: notes/assumptions/11.md). -/
def aluSeq (b c : Word) : Word := wordOfBool (b == c)

/-- `~(b & c)`, bitwise (R130, D9). -/
def aluNand (b c : Word) : Word := ~~~(b &&& c)

/-- Shift left logical by the whole unsigned amount; 16 or more gives 0 (R131, D8: notes/assumptions/10.md). -/
def aluSll (b c : Word) : Word := if uval c < 16 then wrap16 (uval b * 2 ^ uval c : Nat) else 0#16

/-- Shift right logical, zeros entering at the top; 16 or more gives 0 (R132, D8). -/
def aluSrl (b c : Word) : Word := if uval c < 16 then wrap16 (uval b / 2 ^ uval c : Nat) else 0#16

/-- The sum modulo 65536 (R140, R144, D7: notes/assumptions/9.md). -/
def aluAdd (b c : Word) : Word := wrap16 ((uval b : Int) + uval c)

/-- Field B minus field C modulo 65536 (R141, R144, D7, D9). -/
def aluSub (b c : Word) : Word := wrap16 ((uval b : Int) - uval c)

/-- The low 16 bits of the product (R142, R144, D7, D9). -/
def aluMul (b c : Word) : Word := wrap16 (sval b * sval c)

/-- The signed quotient rounded toward zero, wrapped (R143, R145, D6: notes/assumptions/8.md). Used only with a divisor
that is not zero. -/
def aluDiv (b c : Word) : Word := wrap16 ((sval b).tdiv (sval c))

end Sys2Proof.Machine
end

