-- ==== Sys2Proof/Machine/Operands.lean ====
section
/-! DEFINITION. Every operand form of the instruction set: a register's value, the register-indirect address, the two
placements of the immediate, the register-relative branch target; and the one way each kind of instruction uses them,
reading all sources before its one write (spec/40_cycle_nop.md R83). -/

namespace Sys2Proof.Machine

/-- The effective address of `lw` and `sw`: the value held in the register of field B, no displacement
(spec/41_load_store.md R92). -/
def State.effAddr (s : State) (ra : Reg) : Word := s.reg ra

/-- `imm << 8`: the immediate in the high byte, the low byte zero (spec/43_immediate.md R110). -/
def immHigh (imm : Imm8) : Word := zext8 imm <<< 8

/-- The immediate in the low byte, the high byte zero (R61, R111). -/
def immLow (imm : Imm8) : Word := zext8 imm

/-- The target of a taken branch: `wrap16(u(x[2]) + u(x[C]))` with `x[2]` already advanced (spec/42_branch.md R100,
R102). -/
def State.branchTarget (s : State) (rc : Reg) : Word := wrap16 (uval s.pc + uval (s.reg rc))

/-- The R-type shape `Rdst, Rb, Rc` (spec/30_encoding.md R54): both sources read, one result written to the
destination and nowhere else. -/
def State.withResult (s : State) (f : Word → Word → Word) (rd rb rc : Reg) : State :=
  s.setReg rd (f (s.reg rb) (s.reg rc))

/-- A branch: taken, it replaces the advanced pc by the target; not taken, it changes nothing (R100, R101). -/
def State.branchIf (s : State) (taken : Bool) (rc : Reg) : State :=
  if taken then s.setPc (s.branchTarget rc) else s

end Sys2Proof.Machine
end

