-- ==== Sys2Proof/Machine/Arithmetic.lean ====
section
/-! DEFINITION. `add`, `sub`, `mul`, `div` (opcodes 12 to 15) (spec/46_arithmetic.md R140 to R145). -/

namespace Sys2Proof.Machine

/-- Wrapping sum (R140). -/
def execAdd (rd rb rc : Reg) (s : State) : Host.Outcome State Fault Refusal :=
  .next (s.withResult aluAdd rd rb rc)

/-- Wrapping difference, field B minus field C (R141). -/
def execSub (rd rb rc : Reg) (s : State) : Host.Outcome State Fault Refusal :=
  .next (s.withResult aluSub rd rb rc)

/-- Low half of the product (R142). -/
def execMul (rd rb rc : Reg) (s : State) : Host.Outcome State Fault Refusal :=
  .next (s.withResult aluMul rd rb rc)

/-- Signed quotient; a zero divisor takes the exception, whatever the dividend, and writes no register (R143, R161). -/
def execDiv (rd rb rc : Reg) (s : State) : Host.Outcome State Fault Refusal :=
  if s.reg rc = 0#16 then .next s.raiseDivideByZero else .next (s.withResult aluDiv rd rb rc)

end Sys2Proof.Machine
end

