-- ==== Sys2Proof/Machine/Branch.lean ====
section
/-! DEFINITION. `beq` and `bne` (opcodes 3 and 4): the full 16-bit patterns are compared and a taken branch adds the
value of the third register to the advanced pc (spec/42_branch.md R100 to R103). -/

namespace Sys2Proof.Machine

/-- Taken when `x[A] == x[B]` (R100). -/
def execBeq (ra rb rc : Reg) (s : State) : Host.Outcome State Fault Refusal :=
  .next (s.branchIf (s.reg ra == s.reg rb) rc)

/-- Taken when `x[A] != x[B]` (R101). -/
def execBne (ra rb rc : Reg) (s : State) : Host.Outcome State Fault Refusal :=
  .next (s.branchIf (s.reg ra != s.reg rb) rc)

end Sys2Proof.Machine
end

