-- ==== Sys2Proof/Machine/Compare.lean ====
section
/-! DEFINITION. `sgt` and `seq` (opcodes 7 and 8): the word 1 or 0 written to the destination
(spec/44_compare.md R120, R121). -/

namespace Sys2Proof.Machine

/-- Set if greater than, signed (R120). -/
def execSgt (rd rb rc : Reg) (s : State) : Host.Outcome State Fault Refusal :=
  .next (s.withResult aluSgt rd rb rc)

/-- Set if equal (R121). -/
def execSeq (rd rb rc : Reg) (s : State) : Host.Outcome State Fault Refusal :=
  .next (s.withResult aluSeq rd rb rc)

end Sys2Proof.Machine
end

