-- ==== Sys2Proof/Machine/Immediate.lean ====
section
/-! DEFINITION. `lui` and `ori` (opcodes 5 and 6), the I-type instructions (spec/43_immediate.md R110, R111). -/

namespace Sys2Proof.Machine

/-- `x[A] <- imm << 8`; the old value is not read (R110). -/
def execLui (rd : Reg) (imm : Imm8) (s : State) : Host.Outcome State Fault Refusal :=
  .next (s.setReg rd (immHigh imm))

/-- `x[A] <- x[A] | zext_8(imm)` (R111, D10: notes/assumptions/12.md). -/
def execOri (rd : Reg) (imm : Imm8) (s : State) : Host.Outcome State Fault Refusal :=
  .next (s.setReg rd (s.reg rd ||| immLow imm))

end Sys2Proof.Machine
end

