-- ==== Sys2Proof/Machine/Flags.lean ====
section
/-! DEFINITION. The machine has no condition codes (spec/10_state.md R17); its flags are `displayDirty` and
`keyboardHasChar` (R18). This file holds every computation of them: the video side effect of a store, the render of
step 6 and the keyboard poll of step 7 (spec/60_exceptions.md R171, R172, R175). -/

namespace Sys2Proof.Machine

/-- `displayDirty <- b`. -/
def State.setDirty (s : State) (b : Bool) : State := { s with displayDirty := b }

/-- `keyboardHasChar <- b`. -/
def State.setHasChar (s : State) (b : Bool) : State := { s with keyboardHasChar := b }

/-- The device side of a store: in the video region it sets `displayDirty` and emits `VideoWrite` (R171). -/
def State.noteStore (s : State) (a v : Word) : State :=
  if inVideo s.cfg a then (s.setDirty true).emit (.videoWrite a v) else s

/-- `MemWrite(addr, 1, v)`: the store, then its device side effect (spec/00_scope.md section 5, R91). -/
def State.memWrite (s : State) (a v : Word) : State := (s.store a v).noteStore a v

/-- The words `M[VIDEO_BASE], ..., M[0xFFFF]` (R172). -/
def State.videoSnapshot (s : State) : List Word :=
  (List.range' (uval s.cfg.videoBase) (memWords - uval s.cfg.videoBase)).map s.mem.read

/-- Step 6 of the cycle: a dirty display is rendered and the flag cleared (R172). -/
def State.renderIfDirty (s : State) : State :=
  if s.displayDirty then (s.emit (.render s.videoSnapshot)).setDirty false else s

/-- Step 7 of the cycle, the keyboard poll with the host's answer: the flag says whether there was a character, and a
character is stored at `KBD_ADDR` by a plain write (R175, decision D16: notes/assumptions/19.md). -/
def State.pollKeyboard (s : State) (answer : Option Word) : State :=
  match answer with
  | none => s.setHasChar false
  | some c => (s.setHasChar true).store (kbdAddr s.cfg) c

/-- The host's answer to the next poll; where the list says nothing it is `none` (notes/assumptions/2.md). -/
def State.nextAnswer (s : State) : Option Word := s.kbdAnswers.headD none

/-- The state with the host's coming keyboard answers (spec/00_scope.md R4). -/
def State.withAnswers (s : State) (answers : List (Option Word)) : State := { s with kbdAnswers := answers }

/-- The answers after one poll. A cycle that halts has not polled and uses none up (R161, R165). -/
def State.dropAnswer (s : State) : State :=
  if s.status = .running then s.withAnswers s.kbdAnswers.tail else s

end Sys2Proof.Machine
end

