-- ==== Sys2Proof/Machine/LoadStore.lean ====
section
/-! DEFINITION. `lw` and `sw` (opcodes 1 and 2), the only instructions that access data memory
(spec/41_load_store.md R90 to R92). -/

namespace Sys2Proof.Machine

/-- `x[A] <- M[u(x[B])]` (R90). -/
def execLw (rd ra : Reg) (s : State) : Host.Outcome State Fault Refusal :=
  .next (s.setReg rd (s.load (s.effAddr ra)))

/-- `M[u(x[B])] <- x[A]` with the video side effect (R91). -/
def execSw (rs ra : Reg) (s : State) : Host.Outcome State Fault Refusal :=
  .next (s.memWrite (s.effAddr ra) (s.reg rs))

end Sys2Proof.Machine
end

