-- ==== Sys2Proof/Machine/LogicShift.lean ====
section
/-! DEFINITION. `nand`, `sll`, `srl` (opcodes 9 to 11) (spec/45_logic_shift.md R130 to R132). -/

namespace Sys2Proof.Machine

/-- Bitwise not-and (R130). -/
def execNand (rd rb rc : Reg) (s : State) : Host.Outcome State Fault Refusal :=
  .next (s.withResult aluNand rd rb rc)

/-- Shift left logical by a register's value (R131). -/
def execSll (rd rb rc : Reg) (s : State) : Host.Outcome State Fault Refusal :=
  .next (s.withResult aluSll rd rb rc)

/-- Shift right logical by a register's value (R132). -/
def execSrl (rd rb rc : Reg) (s : State) : Host.Outcome State Fault Refusal :=
  .next (s.withResult aluSrl rd rb rc)

end Sys2Proof.Machine
end

