-- ==== Sys2Proof/Machine/Nop.lean ====
section
/-! DEFINITION. `nop` (opcode 0): step 5 of the cycle does nothing (spec/40_cycle_nop.md R85). As in every family file,
the state is that of step 5: `x[2]` is already advanced (R82). -/

namespace Sys2Proof.Machine

/-- "0 `nop` (no effect)" (R85). -/
def execNop (s : State) : Host.Outcome State Fault Refusal := .next s

end Sys2Proof.Machine
end

