-- ==== Sys2Proof/Machine/Dispatch.lean ====
section
/-! DEFINITION. Step 5 of the cycle (spec/40_cycle_nop.md R80): one arm per instruction, each one call of its meaning.
The state is the one after the pc advance of step 4. -/

namespace Sys2Proof.Machine

/-- Execute an instruction (R80 step 5). -/
def exec (i : Instr) (s : State) : Host.Outcome State Fault Refusal :=
  match i with
  | .nop => Sys2Proof.Machine.execNop s
  | .lw rd ra => Sys2Proof.Machine.execLw rd ra s
  | .sw rs ra => Sys2Proof.Machine.execSw rs ra s
  | .beq ra rb rc => Sys2Proof.Machine.execBeq ra rb rc s
  | .bne ra rb rc => Sys2Proof.Machine.execBne ra rb rc s
  | .lui rd imm => Sys2Proof.Machine.execLui rd imm s
  | .ori rd imm => Sys2Proof.Machine.execOri rd imm s
  | .sgt rd rb rc => Sys2Proof.Machine.execSgt rd rb rc s
  | .seq rd rb rc => Sys2Proof.Machine.execSeq rd rb rc s
  | .nand rd rb rc => Sys2Proof.Machine.execNand rd rb rc s
  | .sll rd rb rc => Sys2Proof.Machine.execSll rd rb rc s
  | .srl rd rb rc => Sys2Proof.Machine.execSrl rd rb rc s
  | .add rd rb rc => Sys2Proof.Machine.execAdd rd rb rc s
  | .sub rd rb rc => Sys2Proof.Machine.execSub rd rb rc s
  | .mul rd rb rc => Sys2Proof.Machine.execMul rd rb rc s
  | .div rd rb rc => Sys2Proof.Machine.execDiv rd rb rc s

end Sys2Proof.Machine
end

