-- ==== Sys2Proof/Machine/Cycle.lean ====
section
/-! DEFINITION. One cycle of the machine, steps 1 to 7 of spec/40_cycle_nop.md R80, with the host's keyboard answer as
its argument (spec/00_scope.md R5), and the placing of an instruction where the next cycle fetches it. -/

namespace Sys2Proof.Machine

/-- Step 2: the word at `u(x[2])`, from the same memory `sw` writes, with no side effect (R81, spec/20_memory.md R40,
R41). -/
def State.fetch (s : State) : Word := s.load s.pc

/-- Steps 6 and 7: render if dirty, then poll. An instruction that halted the machine ends the cycle before them
(spec/60_exceptions.md R161). -/
def State.endCycle (s : State) (answer : Option Word) : State :=
  if s.status = .running then s.renderIfDirty.pollKeyboard answer else s

/-- `cycle(state, kbd_answer)` (R80). A pc outside the program region halts the machine and changes nothing else (R165);
a halted machine has no cycle (R167, notes/assumptions/3.md). -/
def cycle (s : State) (answer : Option Word) : Host.Outcome State Fault Refusal :=
  match s.status with
  | .halted why => .fault (.halted why)
  | .running =>
    if s.inProgram s.pc then
      match exec (decode s.fetch) s.advancePc with
      | .next t => .next (t.endCycle answer)
      | .fault f => .fault f
      | .refused r => .refused r
    else .next (s.halt .pcOutOfProgram)

/-- One cycle whose keyboard answer is taken from the state's list of coming answers, which a poll uses up. -/
def cycleFromAnswers (s : State) : Host.Outcome State Fault Refusal :=
  match cycle s s.nextAnswer with
  | .next t => .next t.dropAnswer
  | .fault f => .fault f
  | .refused r => .refused r

/-- A program region that holds the pc: the loaded one where it does, else one word at the pc
(notes/assumptions/21.md). -/
def State.regionAtPc (s : State) : State :=
  if s.inProgram s.pc then s else { s with cfg := { s.cfg with pcInit := s.pc }, progLen := 1 }

/-- The state with a word where the next cycle fetches, the program region holding the pc, and the machine running. -/
def State.placeWord (s : State) (w : Word) : State :=
  { (s.store s.pc w).regionAtPc with status := .running }

end Sys2Proof.Machine
end

