-- ==== Sys2Proof/Machine/Step.lean ====
section
/-! DEFINITION. The step of the machine: one cycle (spec/40_cycle_nop.md R80), and the host's way to place an
instruction. Both only call Machine/Cycle.lean. -/

namespace Sys2Proof.Machine

/-- One step is one cycle, the unit of the step relation (spec/70_reset_and_hazards.md R208). -/
def step (s : State) : Host.Outcome State Fault Refusal := cycleFromAnswers s

/-- The state with the instruction of a table row stored where `step` fetches next; it stands for a load of a program
from outside (R191; notes/assumptions/21.md). -/
def State.withFetchWord (s : State) (nbits w : Nat) : State := s.placeWord (BitVec.ofNat 16 (w % 2 ^ nbits))

end Sys2Proof.Machine
end

