-- ==== Sys2Proof/Machine/Assembler.lean ====
section
/-! DEFINITION. The assembler's observable contract (spec/30_encoding.md section 7, R63 to R72): source lines, operands,
arity, labels, the one pseudo-instruction, the image, the errors. How the original assembler reaches the label addresses
is out of scope (spec/00_scope.md section 3); here they are counted directly. Choices: notes/assumptions/23.md, 24.md, 28.md.
Nothing in the machine depends on this file. -/

namespace Sys2Proof.Machine

/-- A name, mnemonic or operand as written. -/
abbrev Token := List Char

/-- The errors of R70, R71, each fatal for the whole assembly. -/
inductive AsmError where
  | duplicateLabel
  | unknownLabel
  | unknownMnemonic
  | unknownRegister
  | operandCountMismatch
  | lineTooLong
  | fieldOverflow
  /-- the model's own: the second operand of `lui` or `ori` is not a decimal integer, for which R70 names no error -/
  | notDecimal
deriving DecidableEq, Repr

/-- The sixteen mnemonics at their opcode numbers (R54, R58). -/
def mnemonicNames : List Token :=
  ["nop", "lw", "sw", "beq", "bne", "lui", "ori", "sgt", "seq", "nand", "sll", "srl", "add", "sub", "mul", "div"].map
    String.toList

/-- The sixteen register names at their indices (spec/10_state.md R11). Nine spellings are PRESUMED, from general
knowledge (G1; notes/assumptions/25.md). -/
def registerNames : List Token :=
  ["$zero", "$at", "$pc", "$ra", "$sp", "$gp", "$v0", "$v1", "$a0", "$a1", "$s0", "$s1", "$t0", "$t1", "$t2", "$t3"].map
    String.toList

/-- Where a name stands in a list of names. -/
def indexIn (names : List Token) (name : Token) : Option Nat := names.findIdx? (· == name)

/-- The number of operands of a mnemonic's shape (R65). -/
def arity (op : Nat) : Nat :=
  match op with
  | 0 => 0
  | 1 | 2 | 5 | 6 => 2
  | _ => 3

/-- Whether the second operand is an immediate: `lui` and `ori` (R54, R64). -/
def takesImmediate (op : Nat) : Bool := op == 5 || op == 6

/-- A decimal numeral's value, most significant digit first. -/
def decimalDigits (value : Nat) (digits : List Char) : Option Nat :=
  match digits with
  | [] => some value
  | d :: rest => if d.isDigit then decimalDigits (10 * value + (d.toNat - '0'.toNat)) rest else none

/-- A decimal integer, with an optional minus sign (R63, R64). -/
def decimal (token : Token) : Option Int :=
  match token with
  | [] => none
  | '-' :: [] => none
  | '-' :: digits => (decimalDigits 0 digits).map fun n => -(n : Int)
  | digits => (decimalDigits 0 digits).map fun n => (n : Int)

/-- An instruction line with its operands resolved as far as one line tells: an immediate or register list, and the name
of a label where the last operand is one (R64). -/
inductive AsmInstr where
  /-- every operand is a register or an immediate: the logical instruction -/
  | plain (l : Logical)
  /-- the last operand, a register position, is a label: the register operands before it, in order -/
  | withLabel (op : Nat) (regs : List Nat) (label : Token)
deriving DecidableEq, Repr

/-- A parsed source line: an optional label and an optional instruction (R63). -/
structure AsmLine where
  label : Option Token
  instr : Option AsmInstr
deriving DecidableEq, Repr

/-- The logical instruction of an opcode number and register operands in written order (R54). -/
def logicalOf (op : Nat) (regs : List Nat) : Logical :=
  { op := op, a := (regs.getD 0 0 : Nat), b := (regs.getD 1 0 : Nat), c := (regs.getD 2 0 : Nat) }

/-- The registers of operands that must all be registers (R70: `UnknownRegister`). -/
def registersOf (operands : List Token) : Except AsmError (List Nat) :=
  match operands with
  | [] => .ok []
  | t :: rest =>
    match indexIn registerNames t, registersOf rest with
    | some r, .ok rs => .ok (r :: rs)
    | some _, .error e => .error e
    | none, _ => .error .unknownRegister

/-- The operands of `lui` and `ori`: a register, then a decimal immediate in 0..255, never a label (R64, R71). -/
def resolveImmediate (op : Nat) (target imm : Token) : Except AsmError AsmInstr :=
  match indexIn registerNames target, decimal imm with
  | none, _ => .error .unknownRegister
  | some _, none => .error .notDecimal
  | some r, some n =>
    if fitsImm n then .ok (.plain { op := op, a := (r : Nat), imm := n }) else .error .fieldOverflow

/-- The operands of a register-shaped mnemonic: all but the last are registers; the last one, "if it fails to resolve as
a register name, is treated as a label reference" (R64). -/
def resolveRegisters (op : Nat) (operands : List Token) : Except AsmError AsmInstr :=
  match operands.getLast? with
  | none => .ok (.plain (logicalOf op []))
  | some last =>
    match registersOf operands.dropLast with
    | .error e => .error e
    | .ok regs =>
      match indexIn registerNames last with
      | some r => .ok (.plain (logicalOf op (regs ++ [r])))
      | none => .ok (.withLabel op regs last)

/-- A mnemonic and its operands (R64, R65, R70). -/
def resolveInstr (mnemonic : Token) (operands : List Token) : Except AsmError AsmInstr :=
  match indexIn mnemonicNames mnemonic with
  | none => .error .unknownMnemonic
  | some op =>
    if operands.length ≠ arity op then .error .operandCountMismatch
    else if takesImmediate op then resolveImmediate op (operands.getD 0 []) (operands.getD 1 [])
    else resolveRegisters op operands

/-- A token without white space at its ends. -/
def trimToken (cs : List Char) : Token :=
  ((cs.dropWhile Char.isWhitespace).reverse.dropWhile Char.isWhitespace).reverse

/-- The comma-separated operands of a line's rest; none where the rest is blank (R63). -/
def splitOperands (cs : List Char) : List Token :=
  if trimToken cs = [] then [] else (cs.splitOn ',').map trimToken

/-- The instruction part of a line: blank, or a mnemonic and its operands (R63). -/
def parseInstr (cs : List Char) : Except AsmError (Option AsmInstr) :=
  let body := trimToken cs
  if body = [] then .ok none
  else
    match resolveInstr (body.takeWhile fun c => !c.isWhitespace)
        (splitOperands (body.dropWhile fun c => !c.isWhitespace)) with
    | .ok i => .ok (some i)
    | .error e => .error e

/-- A source line: blank, `label:`, or `[label:] mnemonic op[, op]*`, at most 80 characters (R63, R70). The spec does not
say which text is a legal label name (91_not_in_source.md N22). DESIGN CHOICE, unsafe: any text before the first colon is
one, even an empty one, a number, a register name or words with spaces between (notes/assumptions/28.md). -/
def parseLine (line : String) : Except AsmError AsmLine :=
  let cs := line.toList
  if 80 < cs.length then .error .lineTooLong
  else
    let label := if cs.contains ':' then some (trimToken (cs.takeWhile (· != ':'))) else none
    let rest := if cs.contains ':' then (cs.dropWhile (· != ':')).drop 1 else cs
    match parseInstr rest with
    | .ok i => .ok { label := label, instr := i }
    | .error e => .error e

/-- Every line parsed, or the first error. -/
def parseLines (lines : List String) : Except AsmError (List AsmLine) :=
  match lines with
  | [] => .ok []
  | l :: rest =>
    match parseLine l, parseLines rest with
    | .error e, _ => .error e
    | .ok _, .error e => .error e
    | .ok p, .ok ps => .ok (p :: ps)

/-- The words a line emits: three where a label is materialised, one for any other instruction, none for a blank or
bare-label line (R66 to R68). -/
def AsmLine.size (l : AsmLine) : Nat :=
  match l.instr with
  | none => 0
  | some (.plain _) => 1
  | some (.withLabel _ _ _) => 3

/-- The recorded address of a label. -/
def labelAddress (table : List (Token × Nat)) (name : Token) : Option Nat := (table.find? fun e => e.1 == name).map (·.2)

/-- The symbol table: a label denotes the address of the first word its line emits, or of the next word emitted, counted
from `address` (R66, R68); a second definition is an error (R70). -/
def symbolTable (address : Nat) (lines : List AsmLine) : Except AsmError (List (Token × Nat)) :=
  match lines with
  | [] => .ok []
  | l :: rest =>
    match symbolTable (address + l.size) rest with
    | .error e => .error e
    | .ok table =>
      match l.label with
      | none => .ok table
      | some name => if (labelAddress table name).isSome then .error .duplicateLabel else .ok ((name, address) :: table)

/-- LABEL MATERIALISATION (R67): the address loaded into the scratch register 1 by `lui` and `ori`, then the original
instruction with the scratch register as its last operand. -/
def materialise (op : Nat) (regs : List Nat) (addr : Word) : List Word :=
  [encodeI 5 1 (addr.extractLsb' 8 8).toNat, encodeI 6 1 (addr.extractLsb' 0 8).toNat, (logicalOf op (regs ++ [1])).encode]

/-- The words of one line (R69). -/
def emitLine (table : List (Token × Nat)) (l : AsmLine) : Except AsmError (List Word) :=
  match l.instr with
  | none => .ok []
  | some (.plain i) => .ok [i.encode]
  | some (.withLabel op regs name) =>
    match labelAddress table name with
    | none => .error .unknownLabel
    | some a => .ok (materialise op regs (wrap16 a))

/-- The words of all lines, in line order (R69). -/
def emitLines (table : List (Token × Nat)) (lines : List AsmLine) : Except AsmError (List Word) :=
  match lines with
  | [] => .ok []
  | l :: rest =>
    match emitLine table l, emitLines table rest with
    | .error e, _ => .error e
    | .ok _, .error e => .error e
    | .ok ws, .ok more => .ok (ws ++ more)

/-- The program image of parsed lines, its first word for address PC_INIT, or an error and no output (R66 to R70). -/
def assembleLines (pcInit : Word) (lines : List AsmLine) : Except AsmError (List Word) :=
  match symbolTable (uval pcInit) lines with
  | .error e => .error e
  | .ok table => emitLines table lines

/-- The assembler: source text to program image (R63 to R71). -/
def assemble (pcInit : Word) (source : List String) : Except AsmError (List Word) :=
  match parseLines source with
  | .error e => .error e
  | .ok lines => assembleLines pcInit lines

end Sys2Proof.Machine
end

