-- ==== Sys2Proof/Machine/Load.lean ====
section
/-! DEFINITION. Reset and image loading (spec/70_reset_and_hazards.md R190 to R193), the image file format (R196), and a
run of the machine cycle by cycle under fuel (spec/60_exceptions.md R166, R168). -/

namespace Sys2Proof.Machine

/-- Why the loader refuses (R3, R192; DESIGN CHOICE of the names, safe: notes/assumptions/20.md). -/
inductive LoadError where
  /-- VIDEO_BASE is 0, which R3 forbids -/
  | badConfig
  /-- `PC_INIT + PROG_LEN > 65536` (R192) -/
  | programTooLong
  /-- `GP_INIT + DATA_LEN > 65536` (R192) -/
  | dataTooLong
deriving DecidableEq, Repr

/-- Words written to consecutive addresses, plain writes with no device effect (R191, R193). -/
def Memory.loadAt (m : Memory) (base : Nat) (words : List Word) : Memory :=
  match words with
  | [] => m
  | w :: rest => Memory.loadAt (m.write base w) (base + 1) rest

/-- Program load: the words at PC_INIT, and PROG_LEN fixed to their number (R191, R192). -/
def State.loadProgram (s : State) (words : List Word) : State :=
  { s with mem := s.mem.loadAt (uval s.cfg.pcInit) words, progLen := words.length }

/-- Data load: the words at GP_INIT (R193). -/
def State.loadData (s : State) (words : List Word) : State :=
  { s with mem := s.mem.loadAt (uval s.cfg.gpInit) words }

/-- `reset_and_load(Cfg, program_words, data_words)` (R190): reset, then the program, then the data, which wins where
the two overlap (R193); an illegal configuration or an oversized image is refused (R192). Where several refusals apply
the spec names no order: badConfig, then programTooLong, then dataTooLong is a DESIGN CHOICE, safe
(notes/assumptions/20.md). -/
def resetAndLoad (cfg : Cfg) (program data : List Word) : Except LoadError State :=
  if cfg.wf = false then .error .badConfig
  else if imageFits cfg.pcInit program.length = false then .error .programTooLong
  else if imageFits cfg.gpInit data.length = false then .error .dataTooLong
  else .ok (((State.resetWith cfg).loadProgram program).loadData data)

/-- Why an image file is malformed (R196). -/
inductive FileError where
  /-- "A file of odd length is malformed" -/
  | oddLength
deriving DecidableEq, Repr

/-- The words of an image file: two bytes a word, low byte first, no header (R196, D14: notes/assumptions/22.md). -/
def wordsOfFile (bytes : List Byte) : Except FileError (List Word) :=
  match bytes with
  | [] => .ok []
  | [_] => .error .oddLength
  | lo :: hi :: rest =>
    match wordsOfFile rest with
    | .ok words => .ok ((hi ++ lo) :: words)
    | .error e => .error e

/-- The image file of a list of words (R69, R196). -/
def fileOfWords (words : List Word) : List Byte :=
  words.flatMap fun w => [w.extractLsb' 0 8, w.extractLsb' 8 8]

/-- At most `n` cycles, ending early when the machine can take no further cycle. The host stopping between cycles is
`n` running out, and changes no state (R166, R168). -/
def runCycles (n : Nat) (s : State) : State :=
  match n with
  | 0 => s
  | k + 1 =>
    match step s with
    | .next t => runCycles k t
    | .fault _ => s
    | .refused _ => s

end Sys2Proof.Machine
end

