-- ==== Sys2Proof/Safety.lean ====
section
/-! DEFINITION. What counts as a safe run and a legal state, and the words the claims are stated in: frames, and what an
instruction may read and write (spec/10_state.md R13). -/

namespace Sys2Proof.Machine

/-- A run is correct when it did not end in the fault: running, or halted normally (spec/60_exceptions.md R167). -/
def State.safe (s : State) : Bool :=
  match s.status with
  | .running => true
  | .halted .pcOutOfProgram => true
  | .halted (.divideByZero _) => false

/-- The legal states at a cycle boundary: memory in canonical form, a legal configuration (spec/00_scope.md R3), the
program inside the address space (R192), and the display clean (R18: "it is false at every cycle boundary"). -/
def State.Inv (s : State) : Prop :=
  s.mem.wf = true ∧ s.cfg.wf = true ∧ imageFits s.cfg.pcInit s.progLen = true ∧ s.displayDirty = false

/-- A cycle that fetches: the machine runs and the pc is in the program region (R80 step 1). -/
def State.fetches (s : State) : Prop := s.status = .running ∧ s.inProgram s.pc = true

/-- Every word of memory reads the same. -/
def SameMemory (s t : State) : Prop := ∀ a : Nat, t.mem.read a = s.mem.read a

/-- Every register but `r` holds the same. -/
def SameRegsBut (r : Reg) (s t : State) : Prop := ∀ q : Reg, q ≠ r → t.reg q = s.reg q

/-- Every register holds the same. -/
def SameRegs (s t : State) : Prop := ∀ q : Reg, t.reg q = s.reg q

/-- The two flags and the event stream are the same. -/
def SameDevices (s t : State) : Prop :=
  t.keyboardHasChar = s.keyboardHasChar ∧ t.displayDirty = s.displayDirty ∧ t.events = s.events

/-- The configuration, the program length and the coming host answers are the same. -/
def SameRun (s t : State) : Prop := t.cfg = s.cfg ∧ t.progLen = s.progLen ∧ t.kbdAnswers = s.kbdAnswers

/-- The frame of an instruction that writes at most the register `r`: everything else in the state is unchanged. -/
def WritesOnlyReg (r : Reg) (s t : State) : Prop :=
  SameRegsBut r s t ∧ SameMemory s t ∧ SameDevices s t ∧ SameRun s t ∧ t.status = s.status

/-- The register an instruction may write (R13); a branch writes `x[2]` when taken. -/
def destReg (i : Instr) : Option Reg :=
  match i with
  | .nop => none
  | .lw rd _ => some rd
  | .sw _ _ => none
  | .beq _ _ _ => some pcReg
  | .bne _ _ _ => some pcReg
  | .lui rd _ => some rd
  | .ori rd _ => some rd
  | .sgt rd _ _ => some rd
  | .seq rd _ _ => some rd
  | .nand rd _ _ => some rd
  | .sll rd _ _ => some rd
  | .srl rd _ _ => some rd
  | .add rd _ _ => some rd
  | .sub rd _ _ => some rd
  | .mul rd _ _ => some rd
  | .div rd _ _ => some rd

/-- The registers an instruction reads by name (R13). A branch also reads `x[2]`, which its target adds to. -/
def sourceRegs (i : Instr) : List Reg :=
  match i with
  | .nop => []
  | .lw _ ra => [ra]
  | .sw rs ra => [rs, ra]
  | .beq ra rb rc => [ra, rb, rc, pcReg]
  | .bne ra rb rc => [ra, rb, rc, pcReg]
  | .lui _ _ => []
  | .ori rd _ => [rd]
  | .sgt _ rb rc => [rb, rc]
  | .seq _ rb rc => [rb, rc]
  | .nand _ rb rc => [rb, rc]
  | .sll _ rb rc => [rb, rc]
  | .srl _ rb rc => [rb, rc]
  | .add _ rb rc => [rb, rc]
  | .sub _ rb rc => [rb, rc]
  | .mul _ rb rc => [rb, rc]
  | .div _ rb rc => [rb, rc]

/-- The event stream a machine may have emitted at a cycle boundary (spec/60_exceptions.md R171, R172): every video write
is into the video region and followed by the render of the same cycle, whose snapshot is the whole region, the stored word
in its place. -/
def pairedEvents (cfg : Cfg) (events : List Event) : Prop :=
  match events with
  | [] => True
  | .videoWrite a v :: .render snapshot :: rest =>
    cfg.videoBase.toNat ≤ a.toNat ∧ snapshot.length = memWords - cfg.videoBase.toNat ∧
      snapshot[a.toNat - cfg.videoBase.toNat]? = some v ∧ pairedEvents cfg rest
  | .videoWrite _ _ :: .videoWrite _ _ :: _ => False
  | [.videoWrite _ _] => False
  | .render _ :: _ => False

end Sys2Proof.Machine
end

