-- ==== Sys2Proof/Certificates/Slice0/Obligations.lean ====
section
/-! DEFINITION. The statements for the provers. Each docstring names the rule of spec/ it formalises. Where a clause
rests on a decision the spec marks as its own, or on the model's choice, the docstring says so and names the log entry. -/

open Sys2Proof Sys2Proof.Machine

/-! The codec (spec/30_encoding.md). -/

/-- Words written out in spec/95_test_vectors.md section 2.1 decode to the instructions they stand for. -/
def Obligations.DecodeSpecWords : Prop :=
  decode 0xCCAB#16 = .add 12 10 11 ∧ decode 0x1D5F#16 = .lw 13 5 ∧ decode 0x0ABC#16 = .nop ∧
  decode 0x4C0F#16 = .bne 12 0 15 ∧ decode 0x51F8#16 = .lui 1 0xF8 ∧ decode 0x98AB#16 = .nand 8 10 11

/-- R55: `encode_R`, `encode_I` on any integers, and the shape each opcode number is encoded with. -/
def Obligations.EncodeMasksFieldValues : Prop :=
  (∀ op a b c : Int,
    ((encodeR op a b c).toNat : Int) = op % 16 * 4096 + a % 16 * 256 + b % 16 * 16 + c % 16) ∧
  (∀ op a imm : Int, ((encodeI op a imm).toNat : Int) = op % 16 * 4096 + a % 16 * 256 + imm % 256) ∧
  (∀ l : Logical,
    (l.op % 16 = 0 → l.encode = encodeR 0 0 0 0) ∧
    (l.op % 16 = 1 ∨ l.op % 16 = 2 → l.encode = encodeR l.op l.a l.b 0) ∧
    (l.op % 16 = 5 ∨ l.op % 16 = 6 → l.encode = encodeI l.op l.a l.imm) ∧
    (l.op % 16 = 3 ∨ l.op % 16 = 4 ∨ 7 ≤ l.op % 16 → l.encode = encodeR l.op l.a l.b l.c)) ∧
  encode (.add 12 10 11) = 0xCCAB#16

/-- R56: the fields of every word. -/
def Obligations.DecodeReturnsAllFields : Prop :=
  ∀ w : Word,
    (decodeFields w).opcode.toNat = w.toNat / 4096 ∧ (decodeFields w).a.toNat = w.toNat / 256 % 16 ∧
    (decodeFields w).b.toNat = w.toNat / 16 % 16 ∧ (decodeFields w).c.toNat = w.toNat % 16 ∧
    (immField w).toNat = w.toNat % 256 ∧
    (immField w).toNat = 16 * (decodeFields w).b.toNat + (decodeFields w).c.toNat

/-- R57: fields survive the codec (an out-of-range one as its masked value, an in-range one as itself), every word is
re-encoded from its fields, and re-encoding through the mnemonic's shape returns the canonical words only. -/
def Obligations.CodecRoundTrip : Prop :=
  (∀ op a b c : Int,
    ((decodeFields (encodeR op a b c)).opcode.toNat : Int) = op % 16 ∧
    ((decodeFields (encodeR op a b c)).a.toNat : Int) = a % 16 ∧
    ((decodeFields (encodeR op a b c)).b.toNat : Int) = b % 16 ∧
    ((decodeFields (encodeR op a b c)).c.toNat : Int) = c % 16) ∧
  (∀ op a imm : Int,
    ((decodeFields (encodeI op a imm)).opcode.toNat : Int) = op % 16 ∧
    ((decodeFields (encodeI op a imm)).a.toNat : Int) = a % 16 ∧
    ((immField (encodeI op a imm)).toNat : Int) = imm % 256) ∧
  (∀ w : Word,
    encodeR (decodeFields w).opcode.toNat (decodeFields w).a.toNat (decodeFields w).b.toNat
      (decodeFields w).c.toNat = w) ∧
  (∀ w : Word,
    encode (decode w) = w ↔
      ((opcodeField w = 0 → w = 0) ∧ (opcodeField w = 1 ∨ opcodeField w = 2 → cField w = 0)))

/-- Decode and encode agree: every instruction, with every operand, survives encoding and decoding; and so does every
well-formed logical instruction of the codec's integer interface. -/
def Obligations.DecodeEncodeAgree : Prop :=
  (∀ i : Instr, decode (encode i) = i ∧ i.toLogical.wf = true) ∧
  (∀ l : Logical, l.wf = true → (decode l.encode).toLogical = l)

/-- R58: the opcode map, all sixteen rows, on every word. -/
def Obligations.OpcodeSelectsInstruction : Prop :=
  ∀ w : Word,
    (w &&& 0xF000#16 = 0x0000#16 → decode w = .nop) ∧
    (w &&& 0xF000#16 = 0x1000#16 → decode w = .lw (aField w) (bField w)) ∧
    (w &&& 0xF000#16 = 0x2000#16 → decode w = .sw (aField w) (bField w)) ∧
    (w &&& 0xF000#16 = 0x3000#16 → decode w = .beq (aField w) (bField w) (cField w)) ∧
    (w &&& 0xF000#16 = 0x4000#16 → decode w = .bne (aField w) (bField w) (cField w)) ∧
    (w &&& 0xF000#16 = 0x5000#16 → decode w = .lui (aField w) (immField w)) ∧
    (w &&& 0xF000#16 = 0x6000#16 → decode w = .ori (aField w) (immField w)) ∧
    (w &&& 0xF000#16 = 0x7000#16 → decode w = .sgt (aField w) (bField w) (cField w)) ∧
    (w &&& 0xF000#16 = 0x8000#16 → decode w = .seq (aField w) (bField w) (cField w)) ∧
    (w &&& 0xF000#16 = 0x9000#16 → decode w = .nand (aField w) (bField w) (cField w)) ∧
    (w &&& 0xF000#16 = 0xA000#16 → decode w = .sll (aField w) (bField w) (cField w)) ∧
    (w &&& 0xF000#16 = 0xB000#16 → decode w = .srl (aField w) (bField w) (cField w)) ∧
    (w &&& 0xF000#16 = 0xC000#16 → decode w = .add (aField w) (bField w) (cField w)) ∧
    (w &&& 0xF000#16 = 0xD000#16 → decode w = .sub (aField w) (bField w) (cField w)) ∧
    (w &&& 0xF000#16 = 0xE000#16 → decode w = .mul (aField w) (bField w) (cField w)) ∧
    (w &&& 0xF000#16 = 0xF000#16 → decode w = .div (aField w) (bField w) (cField w))

/-! The cycle (spec/40_cycle_nop.md, 60_exceptions.md). -/

/-- 40_cycle_nop.md section 1: a step of a running machine is the cycle: the halting check; else fetch, decode, pc advance, execute, and, when
the instruction did not halt the machine, render and poll, both written out in the last four clauses. The poll's answer is
the next one of the state's list, which the cycle shortens by one (the model's own field for the input `kbd_answer`,
notes/assumptions/2.md). What a poll leaves (60_exceptions.md section 8) is decision D16 (notes/assumptions/19.md), the
form of the render event (section 7) is D15 (18.md), the program region is D4 (6.md). -/
def Obligations.StepRunsDecodedInstruction : Prop :=
  (∀ s : State, s.status = .running →
    ((s.pc.toNat < s.cfg.pcInit.toNat ∨ s.cfg.pcInit.toNat + s.progLen ≤ s.pc.toNat) →
      step s = .next { s with status := .halted .pcOutOfProgram }) ∧
    (s.cfg.pcInit.toNat ≤ s.pc.toNat → s.pc.toNat < s.cfg.pcInit.toNat + s.progLen →
      (∀ t, exec (decode (s.mem.read s.pc.toNat)) (s.setPc (s.pc + 1)) = .next t → t.status ≠ .running →
        step s = .next t) ∧
      (∀ t, exec (decode (s.mem.read s.pc.toNat)) (s.setPc (s.pc + 1)) = .next t → t.status = .running →
        step s = .next ((t.renderIfDirty.pollKeyboard (s.kbdAnswers.headD none)).withAnswers t.kbdAnswers.tail)) ∧
      (∀ f, exec (decode (s.mem.read s.pc.toNat)) (s.setPc (s.pc + 1)) = .fault f → step s = .fault f) ∧
      (∀ r, exec (decode (s.mem.read s.pc.toNat)) (s.setPc (s.pc + 1)) = .refused r → step s = .refused r))) ∧
  (∀ t : State, t.displayDirty = false → t.renderIfDirty = t) ∧
  (∀ t : State, t.displayDirty = true → t.renderIfDirty =
    { t with
      displayDirty := false
      events := t.events ++
        [.render ((List.range (65536 - t.cfg.videoBase.toNat)).map fun i => t.mem.read (t.cfg.videoBase.toNat + i))] }) ∧
  (∀ t : State, t.pollKeyboard none = { t with keyboardHasChar := false }) ∧
  (∀ (t : State) (c : Word), t.pollKeyboard (some c) =
    { t with keyboardHasChar := true, mem := t.mem.write (t.cfg.videoBase - 1).toNat c })

/-- Halted is terminal (60_exceptions.md section 4, decision D19): a halted machine takes no cycle, and no number of
further cycles changes its state. That `step` answers the fault `halted` is the model's choice (notes/assumptions/3.md). -/
def Obligations.HaltedIsTerminal : Prop :=
  ∀ (s : State) (why : Halt), s.status = .halted why →
    step s = .fault (.halted why) ∧ ∀ n, runCycles n s = s

/-- The halting check (60_exceptions.md section 4, decision D4, notes/assumptions/6.md): an empty program halts in its
first cycle, normally, with nothing else changed, whatever the data image and the host's answers. -/
def Obligations.EmptyProgramHaltsAtOnce : Prop :=
  ∀ (cfg : Cfg) (data : List Word) (answers : List (Option Word)) (s : State),
    resetAndLoad cfg [] data = .ok s →
    ∃ t, step (s.withAnswers answers) = .next t ∧ t.status = .halted .pcOutOfProgram ∧ t.safe = true ∧
      t.pc = cfg.pcInit ∧ SameRegs s t ∧ SameMemory s t ∧ SameDevices s t ∧ t.kbdAnswers = answers

/-- R15: the instruction executes with `x[2]` already advanced, and an instruction that does not write `x[2]`, or a
branch that is not taken, leaves it there. -/
def Obligations.PcHoldsNextAddress : Prop :=
  ∀ s t : State, s.fetches → step s = .next t →
    ∃ e, exec (decode (s.mem.read s.pc.toNat)) (s.setPc (s.pc + 1)) = .next e ∧ t.pc = e.pc ∧
      (destReg (decode (s.mem.read s.pc.toNat)) ≠ some pcReg → t.pc = s.pc + 1) ∧
      (∀ ra rb rc, decode (s.mem.read s.pc.toNat) = .beq ra rb rc →
        (s.setPc (s.pc + 1)).reg ra ≠ (s.setPc (s.pc + 1)).reg rb → t.pc = s.pc + 1) ∧
      (∀ ra rb rc, decode (s.mem.read s.pc.toNat) = .bne ra rb rc →
        (s.setPc (s.pc + 1)).reg ra = (s.setPc (s.pc + 1)).reg rb → t.pc = s.pc + 1)

/-! The instructions: what each leaves, as the next state `exec` answers. -/

/-- `nop` (40_cycle_nop.md section 2), every word 0x0000 to 0x0FFF: execute does nothing, and the cycle around it
advances the pc, renders nothing and polls. What the poll leaves (60_exceptions.md section 8) is decision D16
(notes/assumptions/19.md), and the list of the host's answers, shortened by one, is the model's own field
(notes/assumptions/2.md). -/
def Obligations.NopOnlyAdvances : Prop :=
  (∀ s, exec .nop s = .next s) ∧ encode .nop = 0#16 ∧ (∀ w : Word, w.toNat < 4096 → decode w = .nop) ∧
  (∀ s : State, s.fetches → (s.mem.read s.pc.toNat).toNat < 4096 → s.displayDirty = false →
    ∃ t, step s = .next t ∧ t.pc.toNat = (s.pc.toNat + 1) % 65536 ∧ SameRegsBut pcReg s t ∧
      t.status = .running ∧ t.displayDirty = false ∧ t.events = s.events ∧ t.cfg = s.cfg ∧ t.progLen = s.progLen ∧
      t.keyboardHasChar = (s.kbdAnswers.headD none).isSome ∧ t.kbdAnswers = s.kbdAnswers.tail ∧
      (∀ a, a ≠ (kbdAddr s.cfg).toNat → t.mem.read a = s.mem.read a) ∧
      (s.kbdAnswers.headD none = none → SameMemory s t))

/-- R90: `lw`. -/
def Obligations.LwLoadsWord : Prop :=
  (∀ (rd ra : Reg) (s : State), ∃ t, exec (.lw rd ra) s = .next t ∧
    t.reg rd = s.mem.read (s.reg ra).toNat ∧ WritesOnlyReg rd s t) ∧
  (∀ rd ra : Reg, (encode (.lw rd ra)).toNat = 0x1000 + rd.toNat * 256 + ra.toNat * 16) ∧
  (∀ w : Word, w.toNat / 4096 = 1 → decode w = .lw (aField w) (bField w))

/-- R91: `sw`: one word stored, every other word of memory and every register unchanged; the video side effect, whose
event is decision D15 (notes/assumptions/18.md), which R91 takes up. -/
def Obligations.SwStoresWord : Prop :=
  (∀ (rs ra : Reg) (s : State), ∃ t, exec (.sw rs ra) s = .next t ∧
    s.effAddr ra = s.reg ra ∧ t.mem.read (uval (s.effAddr ra)) = s.reg rs ∧
    (∀ a, a ≠ uval (s.effAddr ra) → t.mem.read a = s.mem.read a) ∧
    SameRegs s t ∧ SameRun s t ∧ t.status = s.status ∧ t.keyboardHasChar = s.keyboardHasChar ∧
    (s.cfg.videoBase.toNat ≤ (s.reg ra).toNat →
      t.displayDirty = true ∧ t.events = s.events ++ [.videoWrite (s.reg ra) (s.reg rs)]) ∧
    ((s.reg ra).toNat < s.cfg.videoBase.toNat → t.displayDirty = s.displayDirty ∧ t.events = s.events) ∧
    t.renderIfDirty.displayDirty = false) ∧
  (∀ rs ra : Reg, (encode (.sw rs ra)).toNat = 0x2000 + rs.toNat * 256 + ra.toNat * 16) ∧
  (∀ w : Word, w.toNat / 4096 = 2 → decode w = .sw (aField w) (bField w))

/-- R100: `beq`. -/
def Obligations.BeqAddsOffsetWhenEqual : Prop :=
  (∀ (ra rb rc : Reg) (s : State), ∃ t, exec (.beq ra rb rc) s = .next t ∧
    (s.reg ra = s.reg rb → t.pc.toNat = (s.pc.toNat + (s.reg rc).toNat) % 65536) ∧
    (s.reg ra ≠ s.reg rb → t.pc = s.pc) ∧ WritesOnlyReg pcReg s t) ∧
  (∀ ra rb rc : Reg,
    (encode (.beq ra rb rc)).toNat = 0x3000 + ra.toNat * 256 + rb.toNat * 16 + rc.toNat)

/-- R101: `bne`. -/
def Obligations.BneAddsOffsetWhenUnequal : Prop :=
  (∀ (ra rb rc : Reg) (s : State), ∃ t, exec (.bne ra rb rc) s = .next t ∧
    (s.reg ra ≠ s.reg rb → t.pc.toNat = (s.pc.toNat + (s.reg rc).toNat) % 65536) ∧
    (s.reg ra = s.reg rb → t.pc = s.pc) ∧ WritesOnlyReg pcReg s t) ∧
  (∀ ra rb rc : Reg,
    (encode (.bne ra rb rc)).toNat = 0x4000 + ra.toNat * 256 + rb.toNat * 16 + rc.toNat)

/-- R102: the target of a taken branch, of the whole step: its own address plus 1 plus the offset, modulo 65536, the
offset read unsigned or signed; a target outside the program region halts the machine in the next cycle (the
region is decision D4, notes/assumptions/6.md, which R102 takes up). -/
def Obligations.TakenBranchTarget : Prop :=
  ∀ (s : State) (ra rb rc : Reg), s.fetches →
    (decode (s.mem.read s.pc.toNat) = .beq ra rb rc ∧
        (s.setPc (s.pc + 1)).reg ra = (s.setPc (s.pc + 1)).reg rb ∨
      decode (s.mem.read s.pc.toNat) = .bne ra rb rc ∧
        (s.setPc (s.pc + 1)).reg ra ≠ (s.setPc (s.pc + 1)).reg rb) →
    ∃ t, step s = .next t ∧ t.status = .running ∧
      t.pc.toNat = (s.pc.toNat + 1 + ((s.setPc (s.pc + 1)).reg rc).toNat) % 65536 ∧
      (t.pc.toNat : Int) = ((s.pc.toNat : Int) + 1 + ((s.setPc (s.pc + 1)).reg rc).toInt) % 65536 ∧
      ((t.pc.toNat < s.cfg.pcInit.toNat ∨ s.cfg.pcInit.toNat + s.progLen ≤ t.pc.toNat) →
        ∃ u, step t = .next u ∧ u.status = .halted .pcOutOfProgram ∧ u.pc = t.pc)

/-- R110: `lui`. -/
def Obligations.LuiLoadsUpperByte : Prop :=
  (∀ (rd : Reg) (imm : Imm8) (s : State), ∃ t, exec (.lui rd imm) s = .next t ∧
    (t.reg rd).toNat = imm.toNat * 256 ∧ WritesOnlyReg rd s t) ∧
  (∀ (rd : Reg) (imm : Imm8), (encode (.lui rd imm)).toNat = 0x5000 + rd.toNat * 256 + imm.toNat)

/-- `ori` (43_immediate.md section 2): the high byte is unchanged and the low byte is OR-ed. Zero extension of the
immediate is the spec's decision D10 (notes/assumptions/12.md). -/
def Obligations.OriMergesLowByte : Prop :=
  ∀ (rd : Reg) (imm : Imm8) (s : State), ∃ t, exec (.ori rd imm) s = .next t ∧
    (∀ i, 8 ≤ i → i < 16 → (t.reg rd).getLsbD i = (s.reg rd).getLsbD i) ∧
    (∀ i, i < 8 → (t.reg rd).getLsbD i = ((s.reg rd).getLsbD i || imm.getLsbD i)) ∧ WritesOnlyReg rd s t

/-- The pair (43_immediate.md section 3, derived there): `lui r, hi` then `ori r, lo`, with the pc advance between them,
leaves the word `hi ++ lo` in any register but the pc itself, and changes nothing else but the pc. -/
def Obligations.LuiOriBuildsWord : Prop :=
  ∀ (r : Reg) (v : Word) (s : State), r ≠ pcReg →
    ∃ t u, exec (.lui r (v.extractLsb' 8 8)) s = .next t ∧
      exec (.ori r (v.extractLsb' 0 8)) (t.setPc (t.pc + 1)) = .next u ∧
      u.reg r = v ∧ u.pc = s.pc + 1 ∧ (∀ q, q ≠ r → q ≠ pcReg → u.reg q = s.reg q) ∧
      SameMemory s u ∧ SameDevices s u ∧ SameRun s u ∧ u.status = s.status

/-- `sgt` (44_compare.md section 1); that the comparison is signed is decision D24 (notes/assumptions/13.md). -/
def Obligations.SgtComparesSigned : Prop :=
  ∀ (rd rb rc : Reg) (s : State), ∃ t, exec (.sgt rd rb rc) s = .next t ∧
    ((s.reg rc).toInt < (s.reg rb).toInt → t.reg rd = 1#16) ∧
    ((s.reg rb).toInt ≤ (s.reg rc).toInt → t.reg rd = 0#16) ∧ WritesOnlyReg rd s t

/-- `seq` (44_compare.md section 2); its meaning is decision D9 (notes/assumptions/11.md). -/
def Obligations.SeqComparesEqual : Prop :=
  ∀ (rd rb rc : Reg) (s : State), ∃ t, exec (.seq rd rb rc) s = .next t ∧
    (s.reg rb = s.reg rc → t.reg rd = 1#16) ∧ (s.reg rb ≠ s.reg rc → t.reg rd = 0#16) ∧ WritesOnlyReg rd s t

/-- `nand` (45_logic_shift.md section 1), bit by bit; its meaning is decision D9 (notes/assumptions/11.md). -/
def Obligations.NandIsBitwise : Prop :=
  ∀ (rd rb rc : Reg) (s : State), ∃ t, exec (.nand rd rb rc) s = .next t ∧
    (∀ i, i < 16 → (t.reg rd).getLsbD i = !((s.reg rb).getLsbD i && (s.reg rc).getLsbD i)) ∧ WritesOnlyReg rd s t

/-- `sll` (45_logic_shift.md section 2): zeros enter at the bottom. That an amount of 16 or more gives 0 is decision D8
(notes/assumptions/10.md). -/
def Obligations.SllShiftsLeft : Prop :=
  ∀ (rd rb rc : Reg) (s : State), ∃ t, exec (.sll rd rb rc) s = .next t ∧
    ((s.reg rc).toNat < 16 → (t.reg rd).toNat = (s.reg rb).toNat * 2 ^ (s.reg rc).toNat % 65536) ∧
    (16 ≤ (s.reg rc).toNat → t.reg rd = 0#16) ∧ t.reg rd = s.reg rb <<< (s.reg rc).toNat ∧ WritesOnlyReg rd s t

/-- `srl` (45_logic_shift.md section 3): zeros enter at the top whatever the sign. The zero fill and the result for 16 or
more are decision D8 (notes/assumptions/10.md). -/
def Obligations.SrlShiftsRightLogical : Prop :=
  ∀ (rd rb rc : Reg) (s : State), ∃ t, exec (.srl rd rb rc) s = .next t ∧
    ((s.reg rc).toNat < 16 → (t.reg rd).toNat = (s.reg rb).toNat / 2 ^ (s.reg rc).toNat) ∧
    (16 ≤ (s.reg rc).toNat → t.reg rd = 0#16) ∧ t.reg rd = s.reg rb >>> (s.reg rc).toNat ∧ WritesOnlyReg rd s t

/-- `add` (46_arithmetic.md section 1); wrapping is decision D7 (notes/assumptions/9.md). -/
def Obligations.AddWraps : Prop :=
  ∀ (rd rb rc : Reg) (s : State), ∃ t, exec (.add rd rb rc) s = .next t ∧
    (t.reg rd).toNat = ((s.reg rb).toNat + (s.reg rc).toNat) % 65536 ∧ WritesOnlyReg rd s t

/-- `sub` (46_arithmetic.md section 2), field B minus field C; decisions D7, D9 (notes/assumptions/9.md, 11.md). -/
def Obligations.SubWraps : Prop :=
  ∀ (rd rb rc : Reg) (s : State), ∃ t, exec (.sub rd rb rc) s = .next t ∧
    ((t.reg rd).toNat : Int) = (((s.reg rb).toNat : Int) - (s.reg rc).toNat) % 65536 ∧ WritesOnlyReg rd s t

/-- `mul` (46_arithmetic.md section 3): the low 16 bits, the same for the unsigned and the signed product; decisions D7,
D9 (notes/assumptions/9.md, 11.md). -/
def Obligations.MulKeepsLowHalf : Prop :=
  ∀ (rd rb rc : Reg) (s : State), ∃ t, exec (.mul rd rb rc) s = .next t ∧
    (t.reg rd).toNat = (s.reg rb).toNat * (s.reg rc).toNat % 65536 ∧
    ((t.reg rd).toNat : Int) = (s.reg rb).toInt * (s.reg rc).toInt % 65536 ∧ WritesOnlyReg rd s t

/-- `div` with a nonzero divisor (46_arithmetic.md sections 4 and 5): the quotient's magnitude is the floor of the
magnitudes' quotient, it is negative exactly when the signs differ and it is not zero, and -32768 / -1 wraps. Rounding
and the wrapped quotient are decision D6, the operand order D9 (notes/assumptions/8.md, 11.md). -/
def Obligations.DivRoundsTowardZero : Prop :=
  ∀ (rd rb rc : Reg) (s : State), s.reg rc ≠ 0#16 → ∃ t, exec (.div rd rb rc) s = .next t ∧
    (∃ q : Int, q.natAbs = (s.reg rb).toInt.natAbs / (s.reg rc).toInt.natAbs ∧
      (q < 0 ↔ q ≠ 0 ∧ ((s.reg rb).toInt < 0 ↔ 0 < (s.reg rc).toInt)) ∧
      ((t.reg rd).toNat : Int) = q % 65536 ∧
      (¬ (s.reg rb = 0x8000#16 ∧ s.reg rc = 0xFFFF#16) → (t.reg rd).toInt = q)) ∧
    (s.reg rb = 0x8000#16 → s.reg rc = 0xFFFF#16 → t.reg rd = 0x8000#16) ∧ WritesOnlyReg rd s t

/-- Division by zero (46_arithmetic.md section 4, 60_exceptions.md section 1): the status records the address of the
`div`, `x[2]` stays advanced, and nothing else changes, in `exec` and in the whole step (no render, no poll). Recording the
address and leaving the pc advanced are decision D5 (notes/assumptions/7.md). -/
def Obligations.DivByZeroHalts : Prop :=
  (∀ (rd rb rc : Reg) (s : State), s.reg rc = 0#16 →
    exec (.div rd rb rc) s = .next { s with status := .halted (.divideByZero (s.pc - 1)) }) ∧
  (∀ (rd rb rc : Reg) (s : State), s.fetches → decode (s.mem.read s.pc.toNat) = .div rd rb rc →
    (s.setPc (s.pc + 1)).reg rc = 0#16 →
    step s = .next { s.setPc (s.pc + 1) with status := .halted (.divideByZero s.pc) })

/-! Rules of the whole machine. -/

/-- R160: the complete list of exceptions: every instruction executes to a next state from every state, and only a `div`
whose divisor register holds zero raises anything. The recorded address is decision D5 (notes/assumptions/7.md). -/
def Obligations.OnlyDivideByZeroIsRaised : Prop :=
  ∀ (i : Instr) (s : State), ∃ t, exec i s = .next t ∧
    (t.status ≠ s.status →
      ∃ rd rb rc, i = .div rd rb rc ∧ s.reg rc = 0#16 ∧ t.status = .halted (.divideByZero (s.pc - 1))) ∧
    (∀ rd rb rc, i = .div rd rb rc → s.reg rc = 0#16 → t.status = .halted (.divideByZero (s.pc - 1)))

/-- A run leaves the safe states only by executing a `div` with a zero divisor (60_exceptions.md sections 3 and 4): the
halting check comes first, then the instruction. -/
def Obligations.OnlyDivByZeroIsUnsafe : Prop :=
  ∀ s t : State, step s = .next t →
    (t.safe = false ↔ s.fetches ∧ ∃ rd rb rc, decode (s.mem.read s.pc.toNat) = .div rd rb rc ∧
      (s.setPc (s.pc + 1)).reg rc = 0#16)

/-- 10_state.md section 1: an instruction writes at most its destination register, and what it computes depends, among
registers, only on the ones it names as sources (a branch also on the pc): two states that agree on those and on memory
give the same destination and the same memory. The order of reads before the write is decision D18
(notes/assumptions/17.md). -/
def Obligations.InstructionsTouchNamedRegisters : Prop :=
  (∀ (i : Instr) (s t : State) (q : Reg), exec i s = .next t → destReg i ≠ some q → t.reg q = s.reg q) ∧
  (∀ (i : Instr) (s₁ s₂ t₁ t₂ : State),
    SameMemory s₁ s₂ → (∀ q ∈ sourceRegs i, s₁.reg q = s₂.reg q) →
    exec i s₁ = .next t₁ → exec i s₂ = .next t₂ → s₁.status = .running → t₁.status = .running →
    (∀ r, destReg i = some r → t₁.reg r = t₂.reg r) ∧ SameMemory t₁ t₂)

/-- 20_memory.md section 5: in a whole step a word of memory changes only as the one word an `sw` stores, or as the
keyboard word when the poll delivers a character (decision D16, notes/assumptions/19.md). -/
def Obligations.OnlyStoresAndPollWriteMemory : Prop :=
  ∀ (s t : State) (a : Nat), step s = .next t → t.mem.read a ≠ s.mem.read a →
    (∃ rs ra, decode (s.mem.read s.pc.toNat) = .sw rs ra ∧
      a = uval ((s.setPc (s.pc + 1)).effAddr ra)) ∨
    (a = (kbdAddr s.cfg).toNat ∧ ∃ c, s.kbdAnswers.headD none = some c)

/-- 60_exceptions.md section 7: a cycle emits events exactly when it stores to the video region, then the write and one
render, whose snapshot is the whole region as it stands after the store; the display is clean after every cycle. The
event kinds are decision D15 (notes/assumptions/18.md). The premises are the invariant `State.Inv`. -/
def Obligations.RenderFollowsVideoStore : Prop :=
  ∀ s t : State, s.Inv → s.fetches → step s = .next t →
    t.displayDirty = false ∧
    (∀ rs ra, decode (s.mem.read s.pc.toNat) = .sw rs ra →
      s.cfg.videoBase.toNat ≤ ((s.setPc (s.pc + 1)).reg ra).toNat →
      ∃ snapshot,
        t.events = s.events ++
          [.videoWrite ((s.setPc (s.pc + 1)).reg ra) ((s.setPc (s.pc + 1)).reg rs), .render snapshot] ∧
        snapshot.length = 65536 - s.cfg.videoBase.toNat ∧
        ∀ i, i < snapshot.length → snapshot[i]? = some (t.mem.read (s.cfg.videoBase.toNat + i))) ∧
    ((∀ rs ra, decode (s.mem.read s.pc.toNat) = .sw rs ra →
      ((s.setPc (s.pc + 1)).reg ra).toNat < s.cfg.videoBase.toNat) → t.events = s.events)

/-- 60_exceptions.md section 8 (decision D16, notes/assumptions/19.md): at the end of a cycle that does not halt, the flag
says whether the host delivered a character, a delivered character stands at `VIDEO_BASE - 1` (over anything the
instruction stored there), and otherwise memory is as the instruction left it. -/
def Obligations.KeyboardPollDelivers : Prop :=
  ∀ s t e : State, s.cfg.wf = true → s.fetches →
    exec (decode (s.mem.read s.pc.toNat)) (s.setPc (s.pc + 1)) = .next e →
    e.status = .running → step s = .next t →
    t.keyboardHasChar = (s.kbdAnswers.headD none).isSome ∧ t.kbdAnswers = s.kbdAnswers.tail ∧
    (∀ c, s.kbdAnswers.headD none = some c → t.mem.read (s.cfg.videoBase.toNat - 1) = c) ∧
    (∀ a, s.kbdAnswers.headD none = none ∨ a ≠ s.cfg.videoBase.toNat - 1 → t.mem.read a = e.mem.read a)

/-- R163: the outside world never diverts control: whatever the host answers, a step leaves the same registers (the pc
among them), status and events, and the same memory outside the keyboard word. -/
def Obligations.KeyboardNeverDivertsControl : Prop :=
  ∀ (s t₁ t₂ : State) (k₁ k₂ : List (Option Word)),
    step (s.withAnswers k₁) = .next t₁ → step (s.withAnswers k₂) = .next t₂ →
    SameRegs t₁ t₂ ∧ t₁.status = t₂.status ∧ t₁.events = t₂.events ∧ t₁.displayDirty = t₂.displayDirty ∧
    t₁.cfg = t₂.cfg ∧ t₁.progLen = t₂.progLen ∧
    ∀ a, a ≠ (kbdAddr s.cfg).toNat → t₁.mem.read a = t₂.mem.read a

/-- 60_exceptions.md sections 7 and 8: nothing in the machine reads `keyboardHasChar` or the event stream, and a step only
appends to the stream: with another flag and another past stream the step does the same. -/
def Obligations.FlagAndEventsAreUnread : Prop :=
  ∀ (s t : State) (b : Bool) (past : List Event), step s = .next t →
    ∃ t' new, step { s with keyboardHasChar := b, events := past } = .next t' ∧
      t.events = s.events ++ new ∧ t'.events = past ++ new ∧
      SameRegs t t' ∧ SameMemory t t' ∧ SameRun t t' ∧ t'.status = t.status ∧ t'.displayDirty = t.displayDirty

/-- 20_memory.md section 7 (derived there): a store is seen by the very next fetch, unless the same cycle's keyboard
poll wrote that word. -/
def Obligations.FetchSeesStore : Prop :=
  ∀ (s t : State) (rs ra : Reg), s.fetches → decode (s.mem.read s.pc.toNat) = .sw rs ra → step s = .next t →
    (s.setPc (s.pc + 1)).effAddr ra = t.pc →
    (s.kbdAnswers.headD none = none ∨ t.pc ≠ kbdAddr s.cfg) →
    t.fetch = (s.setPc (s.pc + 1)).reg rs

/-- 20_memory.md section 6: a load returns the value of the most recent earlier store to its address. -/
def Obligations.LoadReturnsLastStore : Prop :=
  ∀ (rs ra rd rb : Reg) (s : State), ∃ t u, exec (.sw rs ra) s = .next t ∧ exec (.lw rd rb) t = .next u ∧
    (s.reg rb = s.reg ra → u.reg rd = s.reg rs) ∧
    (s.reg rb ≠ s.reg ra → u.reg rd = s.mem.read (s.reg rb).toNat)

/-- The configuration and PROG_LEN are constants of a run (10_state.md, opening; 70_reset_and_hazards.md section 1): no
step changes them, nor does any number of cycles. -/
def Obligations.ConfigurationIsConstant : Prop :=
  (∀ s t : State, step s = .next t → t.cfg = s.cfg ∧ t.progLen = s.progLen) ∧
  (∀ (n : Nat) (s : State), (runCycles n s).cfg = s.cfg ∧ (runCycles n s).progLen = s.progLen)

/-! Invariants. -/

/-- Every step keeps a legal state legal: memory in canonical form, a legal configuration, the program inside the address
space, the display clean at the cycle boundary. -/
def Obligations.StepKeepsLegalState : Prop :=
  ∀ s t : State, s.Inv → step s = .next t → t.Inv

/-- The state after reset is legal, under the reference configuration and under every legal one. -/
def Obligations.ResetIsLegal : Prop :=
  State.reset.Inv ∧ ∀ cfg : Cfg, cfg.wf = true → (State.resetWith cfg).Inv

/-- Every state that a loaded machine reaches, under every configuration, images and host answers, is legal, keeps its
configuration, and has emitted a well-paired event stream. -/
def Obligations.LoadedRunsStayLegal : Prop :=
  ∀ (cfg : Cfg) (program data : List Word) (answers : List (Option Word)) (n : Nat) (s : State),
    resetAndLoad cfg program data = .ok s →
    (runCycles n (s.withAnswers answers)).Inv ∧ (runCycles n (s.withAnswers answers)).cfg = cfg ∧
    (runCycles n (s.withAnswers answers)).progLen = program.length ∧
    pairedEvents cfg (runCycles n (s.withAnswers answers)).events

/-- Every step of a legal state keeps the event stream paired: each video write followed by the render of its cycle, whose
snapshot shows the stored word (60_exceptions.md section 7, decision D15, notes/assumptions/18.md). -/
def Obligations.StepKeepsEventsPaired : Prop :=
  ∀ s t : State, s.Inv → pairedEvents s.cfg s.events → step s = .next t → pairedEvents t.cfg t.events

/-! Reset, loading, image files (spec/70_reset_and_hazards.md). -/

/-- 10_state.md section 7: the state after reset under every configuration. The zeros, and that the init addresses are
what the registers hold, are decision D12 (notes/assumptions/5.md, 4.md). -/
def Obligations.ResetValues : Prop :=
  ∀ cfg : Cfg,
    (State.resetWith cfg).pc = cfg.pcInit ∧ (State.resetWith cfg).reg 2 = cfg.pcInit ∧ (State.resetWith cfg).reg 4 = cfg.spInit ∧
    (State.resetWith cfg).reg 5 = cfg.gpInit ∧
    (∀ r : Reg, r ≠ 2 → r ≠ 4 → r ≠ 5 → (State.resetWith cfg).reg r = 0#16) ∧
    (∀ a, (State.resetWith cfg).mem.read a = 0#16) ∧
    (State.resetWith cfg).keyboardHasChar = false ∧ (State.resetWith cfg).displayDirty = false ∧
    (State.resetWith cfg).status = .running ∧ (State.resetWith cfg).events = []

/-- R191: the program image lands at PC_INIT word by word, with no device effect, and its word 0 is the first instruction
executed by a running machine whose pc is PC_INIT. -/
def Obligations.ProgramLoadsAtPcInit : Prop :=
  ∀ (s : State) (words : List Word),
    (∀ i, i < words.length →
      (s.loadProgram words).mem.read (s.cfg.pcInit.toNat + i) = words.getD i 0#16) ∧
    (∀ a, a < s.cfg.pcInit.toNat ∨ s.cfg.pcInit.toNat + words.length ≤ a →
      (s.loadProgram words).mem.read a = s.mem.read a) ∧
    SameRegs s (s.loadProgram words) ∧ SameDevices s (s.loadProgram words) ∧
    (s.loadProgram words).status = s.status ∧
    (s.status = .running → s.pc = s.cfg.pcInit → words ≠ [] →
      (s.loadProgram words).fetches ∧ (s.loadProgram words).fetch = words.getD 0 0#16)

/-- 70_reset_and_hazards.md section 1 (decision D13, notes/assumptions/20.md): the loader refuses an oversized image or an
illegal configuration, and otherwise leaves the data words at GP_INIT, the program words at PC_INIT where no data word
lies, every other word zero, and the reset registers. -/
def Obligations.ResetAndLoadPlacesImages : Prop :=
  ∀ (cfg : Cfg) (program data : List Word),
    ((∃ s, resetAndLoad cfg program data = .ok s) ↔
      cfg.videoBase ≠ 0#16 ∧ cfg.pcInit.toNat + program.length ≤ 65536 ∧ cfg.gpInit.toNat + data.length ≤ 65536) ∧
    (∀ s, resetAndLoad cfg program data = .ok s →
      (∀ i, i < data.length → s.mem.read (cfg.gpInit.toNat + i) = data.getD i 0#16) ∧
      (∀ i, i < program.length →
        cfg.pcInit.toNat + i < cfg.gpInit.toNat ∨ cfg.gpInit.toNat + data.length ≤ cfg.pcInit.toNat + i →
        s.mem.read (cfg.pcInit.toNat + i) = program.getD i 0#16) ∧
      (∀ a, (a < cfg.gpInit.toNat ∨ cfg.gpInit.toNat + data.length ≤ a) →
        (a < cfg.pcInit.toNat ∨ cfg.pcInit.toNat + program.length ≤ a) → s.mem.read a = 0#16) ∧
      SameRegs (State.resetWith cfg) s ∧ SameDevices (State.resetWith cfg) s ∧ s.status = .running ∧
      s.cfg = cfg ∧ s.progLen = program.length)

/-- The image file format (70_reset_and_hazards.md section 1; little-endian is decision D14, notes/assumptions/22.md): the
file of a list of words reads back as that list, byte 2i being the low byte and byte 2i + 1 the high byte of word i, and a
file is malformed exactly when its length is odd. -/
def Obligations.ImageFileRoundTrip : Prop :=
  (∀ words : List Word, wordsOfFile (fileOfWords words) = .ok words) ∧
  (∀ (words : List Word) (i : Nat) (w : Word), words[i]? = some w →
    (fileOfWords words)[2 * i]? = some (w.extractLsb' 0 8) ∧
    (fileOfWords words)[2 * i + 1]? = some (w.extractLsb' 8 8)) ∧
  (∀ bytes : List Byte, wordsOfFile bytes = .error .oddLength ↔ bytes.length % 2 = 1) ∧
  (∀ (bytes : List Byte) (words : List Word), wordsOfFile bytes = .ok words → fileOfWords words = bytes)

/-! The assembler's contract (spec/30_encoding.md section 7). -/

/-- R65: each mnemonic takes exactly the operands of its shape; any other count is `OperandCountMismatch`. -/
def Obligations.ArityIsChecked : Prop :=
  (∀ (operands : List Token),
    (resolveInstr "nop".toList operands = .error .operandCountMismatch ↔ operands.length ≠ 0)) ∧
  (∀ n ∈ ["lw", "sw", "lui", "ori"], ∀ operands : List Token,
    (resolveInstr n.toList operands = .error .operandCountMismatch ↔ operands.length ≠ 2)) ∧
  (∀ n ∈ ["beq", "bne", "sgt", "seq", "nand", "sll", "srl", "add", "sub", "mul", "div"],
    ∀ operands : List Token,
      (resolveInstr n.toList operands = .error .operandCountMismatch ↔ operands.length ≠ 3))

/-- R71: the assembler rejects a decimal immediate outside 0..255 and encodes one inside it, while the codec masks; a
register name's index and a label address's two halves always fit their fields. -/
def Obligations.FieldOverflowIsHardError : Prop :=
  (∀ (n target imm : Token) (op r : Nat) (k : Int),
    (n = "lui".toList ∧ op = 5 ∨ n = "ori".toList ∧ op = 6) →
    indexIn registerNames target = some r → decimal imm = some k →
    (k < 0 ∨ 255 < k → resolveInstr n [target, imm] = .error .fieldOverflow) ∧
    (0 ≤ k → k ≤ 255 → resolveInstr n [target, imm] = .ok (.plain { op := op, a := (r : Nat), imm := k }))) ∧
  (∀ op a imm : Int, encodeI op a imm = encodeI op a (imm % 256)) ∧
  (∀ (t : Token) (r : Nat), indexIn registerNames t = some r → r < 16) ∧
  (∀ addr : Word, fitsImm (addr.extractLsb' 8 8).toNat = true ∧ fitsImm (addr.extractLsb' 0 8).toNat = true)

/-- Label materialisation (30_encoding.md section 7; the scratch register and the halves are decision D20,
notes/assumptions/23.md): three words, `lui $at` with the high byte, `ori $at` with the low byte, and the original
instruction with `$at` as its last operand. -/
def Obligations.LabelMaterialisation : Prop :=
  ∀ (a b : Reg) (addr : Word) (hi lo : Imm8), hi.toNat = addr.toNat / 256 → lo.toNat = addr.toNat % 256 →
    (materialise 1 [a.toNat] addr).map decode = [.lui 1 hi, .ori 1 lo, .lw a 1] ∧
    (materialise 2 [a.toNat] addr).map decode = [.lui 1 hi, .ori 1 lo, .sw a 1] ∧
    (materialise 3 [a.toNat, b.toNat] addr).map decode = [.lui 1 hi, .ori 1 lo, .beq a b 1] ∧
    (materialise 4 [a.toNat, b.toNat] addr).map decode = [.lui 1 hi, .ori 1 lo, .bne a b 1] ∧
    (materialise 7 [a.toNat, b.toNat] addr).map decode = [.lui 1 hi, .ori 1 lo, .sgt a b 1] ∧
    (materialise 8 [a.toNat, b.toNat] addr).map decode = [.lui 1 hi, .ori 1 lo, .seq a b 1] ∧
    (materialise 9 [a.toNat, b.toNat] addr).map decode = [.lui 1 hi, .ori 1 lo, .nand a b 1] ∧
    (materialise 10 [a.toNat, b.toNat] addr).map decode = [.lui 1 hi, .ori 1 lo, .sll a b 1] ∧
    (materialise 11 [a.toNat, b.toNat] addr).map decode = [.lui 1 hi, .ori 1 lo, .srl a b 1] ∧
    (materialise 12 [a.toNat, b.toNat] addr).map decode = [.lui 1 hi, .ori 1 lo, .add a b 1] ∧
    (materialise 13 [a.toNat, b.toNat] addr).map decode = [.lui 1 hi, .ori 1 lo, .sub a b 1] ∧
    (materialise 14 [a.toNat, b.toNat] addr).map decode = [.lui 1 hi, .ori 1 lo, .mul a b 1] ∧
    (materialise 15 [a.toNat, b.toNat] addr).map decode = [.lui 1 hi, .ori 1 lo, .div a b 1]

/-- R68: every label's address is the start address plus the number of words emitted by all lines before the line it
labels (3 for a line with a label operand, 1 for another instruction, 0 for a blank or bare-label line), and that is its
word offset in the final image. -/
def Obligations.LabelAddressIsTrueOffset : Prop :=
  (∀ l : AsmLine,
    (l.instr = none → l.size = 0) ∧ (∀ i, l.instr = some (.plain i) → l.size = 1) ∧
    (∀ op regs name, l.instr = some (.withLabel op regs name) → l.size = 3)) ∧
  (∀ (address : Nat) (lines : List AsmLine) (table : List (Token × Nat)) (k : Nat) (line : AsmLine) (name : Token),
    symbolTable address lines = .ok table → lines[k]? = some line → line.label = some name →
    labelAddress table name = some (address + ((lines.take k).map AsmLine.size).sum)) ∧
  (∀ (lines : List AsmLine) (table : List (Token × Nat)) (image : List Word) (k : Nat),
    emitLines table lines = .ok image → k ≤ lines.length →
    ∃ before, emitLines table (lines.take k) = .ok before ∧ before <+: image ∧
      before.length = ((lines.take k).map AsmLine.size).sum)

/-- A label defined twice is fatal for the whole assembly (30_encoding.md section 7: "unique per assembly unit"). -/
def Obligations.DuplicateLabelIsFatal : Prop :=
  ∀ (pcInit : Word) (lines : List AsmLine) (j k : Nat) (l₁ l₂ : AsmLine) (name : Token),
    j < k → lines[j]? = some l₁ → lines[k]? = some l₂ → l₁.label = some name → l₂.label = some name →
    assembleLines pcInit lines = .error .duplicateLabel

/-- The hazard of a label on a branch (70_reset_and_hazards.md section 2, derived there): with the label's absolute
address in `$at`, a taken branch on `$at` reaches the label only when the advanced pc is 0. -/
def Obligations.LabelOnBranchMissesLabel : Prop :=
  ∀ (ra rb : Reg) (s : State), s.reg ra = s.reg rb →
    ∃ t, exec (.beq ra rb 1) s = .next t ∧ (t.pc = s.reg 1 ↔ s.pc = 0#16)
end

