-- ==== Sys2Proof/Laws/Memory.lean ====
section
/-! SUPPORT. The laws of memory: what a word reads after a write, and that every memory operation keeps the canonical
form. -/

namespace Sys2Proof.Machine

theorem Memory.read_erase_self (m : Memory) (a : Nat) : (m.erase a).read a = unlistedWord := by
  induction m with
  | nil => rfl
  | cons cell rest ih =>
    obtain ⟨b, v⟩ := cell
    by_cases h : b = a
    · simpa [Memory.erase, h] using ih
    · simpa [Memory.erase, Memory.read, h] using ih

theorem Memory.read_erase_ne (m : Memory) {a b : Nat} (h : b ≠ a) : (m.erase a).read b = m.read b := by
  induction m with
  | nil => rfl
  | cons cell rest ih =>
    obtain ⟨c, v⟩ := cell
    by_cases hc : c = a
    · have : c ≠ b := fun e => h (e ▸ hc)
      simpa [Memory.erase, Memory.read, hc, this, Ne.symm h] using ih
    · by_cases hb : c = b
      · simp [Memory.erase, Memory.read, hb, h]
      · simpa [Memory.erase, Memory.read, hc, hb] using ih

theorem Memory.read_insert_ne (m : Memory) {a b : Nat} (v : Word) (h : b ≠ a) : (m.insert a v).read b = m.read b := by
  induction m with
  | nil => simp [Memory.insert, Memory.read, Ne.symm h]
  | cons cell rest ih =>
    obtain ⟨c, w⟩ := cell
    by_cases hlt : a < c
    · simp [Memory.insert, Memory.read, hlt, Ne.symm h]
    · simp [Memory.insert, Memory.read, hlt, ih]

theorem Memory.read_insert_self (m : Memory) (a : Nat) (v : Word) (h : ∀ cell ∈ m, cell.1 ≠ a) :
    (m.insert a v).read a = v := by
  induction m with
  | nil => simp [Memory.insert, Memory.read]
  | cons cell rest ih =>
    obtain ⟨c, w⟩ := cell
    have hc : c ≠ a := h (c, w) (by simp)
    by_cases hlt : a < c
    · simp [Memory.insert, Memory.read, hlt]
    · simpa [Memory.insert, Memory.read, hlt, hc] using ih fun cell hm => h cell (by simp [hm])

theorem Memory.erase_keys_ne (m : Memory) (a : Nat) : ∀ cell ∈ m.erase a, cell.1 ≠ a := by
  intro cell hm
  simpa using (List.mem_filter.mp hm).2

/-- A read after a write to the same address gives the value written, in every memory. -/
@[simp] theorem Memory.read_write_self (m : Memory) (a : Nat) (v : Word) : (m.write a v).read a = v := by
  unfold Memory.write
  split
  · next h => rw [Memory.read_erase_self, h]
  · exact Memory.read_insert_self _ a v (Memory.erase_keys_ne m a)

/-- A write leaves every other address alone, in every memory. -/
theorem Memory.read_write_ne (m : Memory) {a b : Nat} (v : Word) (h : b ≠ a) : (m.write a v).read b = m.read b := by
  unfold Memory.write
  split
  · exact Memory.read_erase_ne m h
  · rw [Memory.read_insert_ne _ v h, Memory.read_erase_ne m h]

theorem Memory.read_write (m : Memory) (a b : Nat) (v : Word) :
    (m.write a v).read b = if b = a then v else m.read b := by
  by_cases h : b = a
  · simp [h]
  · simp [h, Memory.read_write_ne m v h]

/-- The canonical form of a memory with a first entry. -/
theorem Memory.wf_cons (a : Nat) (v : Word) (rest : Memory) :
    Memory.wf ((a, v) :: rest) = true ↔
      a < memWords ∧ v ≠ unlistedWord ∧ (∀ cell ∈ rest, a < cell.1) ∧ Memory.wf rest = true := by
  simp [Memory.wf, and_assoc]

theorem Memory.wf_erase {m : Memory} (a : Nat) (h : m.wf = true) : (m.erase a).wf = true := by
  induction m with
  | nil => rfl
  | cons cell rest ih =>
    obtain ⟨b, v⟩ := cell
    obtain ⟨hb, hv, hall, hrest⟩ := (Memory.wf_cons b v rest).mp h
    by_cases hba : b = a
    · simpa [Memory.erase, hba] using ih hrest
    · have : Memory.erase ((b, v) :: rest) a = (b, v) :: Memory.erase rest a := by simp [Memory.erase, hba]
      rw [this, Memory.wf_cons]
      exact ⟨hb, hv, fun cell hm => hall cell (List.mem_filter.mp hm).1, ih hrest⟩

theorem Memory.mem_insert {m : Memory} {a : Nat} {v : Word} {cell : Nat × Word} (h : cell ∈ m.insert a v) :
    cell = (a, v) ∨ cell ∈ m := by
  induction m with
  | nil => simpa [Memory.insert] using h
  | cons c rest ih =>
    obtain ⟨b, w⟩ := c
    by_cases hlt : a < b
    · simpa [Memory.insert, hlt] using h
    · rw [Memory.insert, if_neg hlt] at h
      rcases List.mem_cons.mp h with h | h
      · exact .inr (by simp [h])
      · exact (ih h).imp id fun h => by simp [h]

theorem Memory.wf_insert {m : Memory} {a : Nat} {v : Word} (h : m.wf = true) (ha : a < memWords)
    (hv : v ≠ unlistedWord) (hk : ∀ cell ∈ m, cell.1 ≠ a) : (m.insert a v).wf = true := by
  induction m with
  | nil => simpa [Memory.insert, Memory.wf] using ⟨ha, hv⟩
  | cons cell rest ih =>
    obtain ⟨b, w⟩ := cell
    obtain ⟨hb, hw, hall, hrest⟩ := (Memory.wf_cons b w rest).mp h
    have hba : b ≠ a := hk (b, w) (by simp)
    by_cases hlt : a < b
    · rw [Memory.insert, if_pos hlt, Memory.wf_cons]
      refine ⟨ha, hv, fun cell hm => ?_, h⟩
      rcases List.mem_cons.mp hm with rfl | hm
      · exact hlt
      · exact hlt.trans (hall cell hm)
    · rw [Memory.insert, if_neg hlt, Memory.wf_cons]
      refine ⟨hb, hw, fun cell hm => ?_, ih hrest fun cell hm => hk cell (by simp [hm])⟩
      rcases Memory.mem_insert hm with rfl | hm
      · show b < a; omega
      · exact hall cell hm

/-- A write inside the address space keeps the canonical form. -/
theorem Memory.wf_write {m : Memory} {a : Nat} (v : Word) (h : m.wf = true) (ha : a < memWords) :
    (m.write a v).wf = true := by
  unfold Memory.write
  split
  · exact Memory.wf_erase a h
  · next hv => exact Memory.wf_insert (Memory.wf_erase a h) ha hv (Memory.erase_keys_ne m a)

/-- A load of an image that stays inside the address space keeps the canonical form. -/
theorem Memory.wf_loadAt (words : List Word) {m : Memory} {base : Nat} (h : m.wf = true)
    (hfit : base + words.length ≤ memWords) : (m.loadAt base words).wf = true := by
  induction words generalizing m base with
  | nil => exact h
  | cons w rest ih =>
    simp only [List.length_cons] at hfit
    exact ih (Memory.wf_write w h (by omega)) (by omega)

/-- An address register always addresses a word of the space (R31, R36). -/
theorem uval_lt (a : Word) : uval a < memWords := a.isLt

/-- What a loaded address reads as: the image's word inside the image, the old word outside it. -/
theorem Memory.read_loadAt (words : List Word) (m : Memory) (base a : Nat) :
    (m.loadAt base words).read a =
      if h : base ≤ a ∧ a < base + words.length then words[a - base]'(by omega) else m.read a := by
  induction words generalizing m base with
  | nil =>
    simp [Memory.loadAt]
  | cons w rest ih =>
    rw [Memory.loadAt, ih]
    by_cases h1 : base + 1 ≤ a ∧ a < base + 1 + rest.length
    · have h2 : base ≤ a ∧ a < base + (w :: rest).length := by simp only [List.length_cons]; omega
      have h3 : a - base = (a - (base + 1)) + 1 := by omega
      rw [dif_pos h1, dif_pos h2]
      simp only [h3, List.getElem_cons_succ]
    · rw [dif_neg h1, Memory.read_write]
      by_cases h4 : a = base
      · subst h4
        simp
      · have h2 : ¬ (base ≤ a ∧ a < base + (w :: rest).length) := by simp only [List.length_cons]; omega
        rw [if_neg h4, dif_neg h2]

end Sys2Proof.Machine
end

