-- ==== Sys2Proof/Laws/State.lean ====
section
/-! SUPPORT. One lemma per field per named update of the state, so that no later proof unfolds a record update; and what
a register reads after each update. -/

namespace Sys2Proof.Machine

@[simp] theorem State.setReg_mem (s : State) (r : Reg) (v : Word) : (s.setReg r v).mem = s.mem := rfl
@[simp] theorem State.setReg_keyboardHasChar (s : State) (r : Reg) (v : Word) : (s.setReg r v).keyboardHasChar = s.keyboardHasChar := rfl
@[simp] theorem State.setReg_displayDirty (s : State) (r : Reg) (v : Word) : (s.setReg r v).displayDirty = s.displayDirty := rfl
@[simp] theorem State.setReg_status (s : State) (r : Reg) (v : Word) : (s.setReg r v).status = s.status := rfl
@[simp] theorem State.setReg_events (s : State) (r : Reg) (v : Word) : (s.setReg r v).events = s.events := rfl
@[simp] theorem State.setReg_cfg (s : State) (r : Reg) (v : Word) : (s.setReg r v).cfg = s.cfg := rfl
@[simp] theorem State.setReg_progLen (s : State) (r : Reg) (v : Word) : (s.setReg r v).progLen = s.progLen := rfl
@[simp] theorem State.setReg_kbdAnswers (s : State) (r : Reg) (v : Word) : (s.setReg r v).kbdAnswers = s.kbdAnswers := rfl

@[simp] theorem State.setPc_mem (s : State) (v : Word) : (s.setPc v).mem = s.mem := rfl
@[simp] theorem State.setPc_keyboardHasChar (s : State) (v : Word) : (s.setPc v).keyboardHasChar = s.keyboardHasChar := rfl
@[simp] theorem State.setPc_displayDirty (s : State) (v : Word) : (s.setPc v).displayDirty = s.displayDirty := rfl
@[simp] theorem State.setPc_status (s : State) (v : Word) : (s.setPc v).status = s.status := rfl
@[simp] theorem State.setPc_events (s : State) (v : Word) : (s.setPc v).events = s.events := rfl
@[simp] theorem State.setPc_cfg (s : State) (v : Word) : (s.setPc v).cfg = s.cfg := rfl
@[simp] theorem State.setPc_progLen (s : State) (v : Word) : (s.setPc v).progLen = s.progLen := rfl
@[simp] theorem State.setPc_kbdAnswers (s : State) (v : Word) : (s.setPc v).kbdAnswers = s.kbdAnswers := rfl

@[simp] theorem State.advancePc_mem (s : State) : (s.advancePc).mem = s.mem := rfl
@[simp] theorem State.advancePc_keyboardHasChar (s : State) : (s.advancePc).keyboardHasChar = s.keyboardHasChar := rfl
@[simp] theorem State.advancePc_displayDirty (s : State) : (s.advancePc).displayDirty = s.displayDirty := rfl
@[simp] theorem State.advancePc_status (s : State) : (s.advancePc).status = s.status := rfl
@[simp] theorem State.advancePc_events (s : State) : (s.advancePc).events = s.events := rfl
@[simp] theorem State.advancePc_cfg (s : State) : (s.advancePc).cfg = s.cfg := rfl
@[simp] theorem State.advancePc_progLen (s : State) : (s.advancePc).progLen = s.progLen := rfl
@[simp] theorem State.advancePc_kbdAnswers (s : State) : (s.advancePc).kbdAnswers = s.kbdAnswers := rfl

@[simp] theorem State.store_mem (s : State) (a v : Word) : (s.store a v).mem = s.mem.write (uval a) v := rfl
@[simp] theorem State.store_keyboardHasChar (s : State) (a v : Word) : (s.store a v).keyboardHasChar = s.keyboardHasChar := rfl
@[simp] theorem State.store_displayDirty (s : State) (a v : Word) : (s.store a v).displayDirty = s.displayDirty := rfl
@[simp] theorem State.store_status (s : State) (a v : Word) : (s.store a v).status = s.status := rfl
@[simp] theorem State.store_events (s : State) (a v : Word) : (s.store a v).events = s.events := rfl
@[simp] theorem State.store_cfg (s : State) (a v : Word) : (s.store a v).cfg = s.cfg := rfl
@[simp] theorem State.store_progLen (s : State) (a v : Word) : (s.store a v).progLen = s.progLen := rfl
@[simp] theorem State.store_kbdAnswers (s : State) (a v : Word) : (s.store a v).kbdAnswers = s.kbdAnswers := rfl
@[simp] theorem State.store_reg (s : State) (a v : Word) (q : Reg) : (s.store a v).reg q = s.reg q := rfl
@[simp] theorem State.store_pc (s : State) (a v : Word) : (s.store a v).pc = s.pc := rfl

@[simp] theorem State.emit_mem (s : State) (e : Event) : (s.emit e).mem = s.mem := rfl
@[simp] theorem State.emit_keyboardHasChar (s : State) (e : Event) : (s.emit e).keyboardHasChar = s.keyboardHasChar := rfl
@[simp] theorem State.emit_displayDirty (s : State) (e : Event) : (s.emit e).displayDirty = s.displayDirty := rfl
@[simp] theorem State.emit_status (s : State) (e : Event) : (s.emit e).status = s.status := rfl
@[simp] theorem State.emit_events (s : State) (e : Event) : (s.emit e).events = s.events ++ [e] := rfl
@[simp] theorem State.emit_cfg (s : State) (e : Event) : (s.emit e).cfg = s.cfg := rfl
@[simp] theorem State.emit_progLen (s : State) (e : Event) : (s.emit e).progLen = s.progLen := rfl
@[simp] theorem State.emit_kbdAnswers (s : State) (e : Event) : (s.emit e).kbdAnswers = s.kbdAnswers := rfl
@[simp] theorem State.emit_reg (s : State) (e : Event) (q : Reg) : (s.emit e).reg q = s.reg q := rfl
@[simp] theorem State.emit_pc (s : State) (e : Event) : (s.emit e).pc = s.pc := rfl

@[simp] theorem State.halt_mem (s : State) (why : Halt) : (s.halt why).mem = s.mem := rfl
@[simp] theorem State.halt_keyboardHasChar (s : State) (why : Halt) : (s.halt why).keyboardHasChar = s.keyboardHasChar := rfl
@[simp] theorem State.halt_displayDirty (s : State) (why : Halt) : (s.halt why).displayDirty = s.displayDirty := rfl
@[simp] theorem State.halt_status (s : State) (why : Halt) : (s.halt why).status = .halted why := rfl
@[simp] theorem State.halt_events (s : State) (why : Halt) : (s.halt why).events = s.events := rfl
@[simp] theorem State.halt_cfg (s : State) (why : Halt) : (s.halt why).cfg = s.cfg := rfl
@[simp] theorem State.halt_progLen (s : State) (why : Halt) : (s.halt why).progLen = s.progLen := rfl
@[simp] theorem State.halt_kbdAnswers (s : State) (why : Halt) : (s.halt why).kbdAnswers = s.kbdAnswers := rfl
@[simp] theorem State.halt_reg (s : State) (why : Halt) (q : Reg) : (s.halt why).reg q = s.reg q := rfl
@[simp] theorem State.halt_pc (s : State) (why : Halt) : (s.halt why).pc = s.pc := rfl

@[simp] theorem State.raiseDivideByZero_mem (s : State) : (s.raiseDivideByZero).mem = s.mem := rfl
@[simp] theorem State.raiseDivideByZero_keyboardHasChar (s : State) : (s.raiseDivideByZero).keyboardHasChar = s.keyboardHasChar := rfl
@[simp] theorem State.raiseDivideByZero_displayDirty (s : State) : (s.raiseDivideByZero).displayDirty = s.displayDirty := rfl
@[simp] theorem State.raiseDivideByZero_status (s : State) : (s.raiseDivideByZero).status = .halted (.divideByZero (wrap16 ((uval s.pc : Int) - 1))) := rfl
@[simp] theorem State.raiseDivideByZero_events (s : State) : (s.raiseDivideByZero).events = s.events := rfl
@[simp] theorem State.raiseDivideByZero_cfg (s : State) : (s.raiseDivideByZero).cfg = s.cfg := rfl
@[simp] theorem State.raiseDivideByZero_progLen (s : State) : (s.raiseDivideByZero).progLen = s.progLen := rfl
@[simp] theorem State.raiseDivideByZero_kbdAnswers (s : State) : (s.raiseDivideByZero).kbdAnswers = s.kbdAnswers := rfl
@[simp] theorem State.raiseDivideByZero_reg (s : State) (q : Reg) : (s.raiseDivideByZero).reg q = s.reg q := rfl
@[simp] theorem State.raiseDivideByZero_pc (s : State) : (s.raiseDivideByZero).pc = s.pc := rfl

@[simp] theorem State.setDirty_mem (s : State) (b : Bool) : (s.setDirty b).mem = s.mem := rfl
@[simp] theorem State.setDirty_keyboardHasChar (s : State) (b : Bool) : (s.setDirty b).keyboardHasChar = s.keyboardHasChar := rfl
@[simp] theorem State.setDirty_displayDirty (s : State) (b : Bool) : (s.setDirty b).displayDirty = b := rfl
@[simp] theorem State.setDirty_status (s : State) (b : Bool) : (s.setDirty b).status = s.status := rfl
@[simp] theorem State.setDirty_events (s : State) (b : Bool) : (s.setDirty b).events = s.events := rfl
@[simp] theorem State.setDirty_cfg (s : State) (b : Bool) : (s.setDirty b).cfg = s.cfg := rfl
@[simp] theorem State.setDirty_progLen (s : State) (b : Bool) : (s.setDirty b).progLen = s.progLen := rfl
@[simp] theorem State.setDirty_kbdAnswers (s : State) (b : Bool) : (s.setDirty b).kbdAnswers = s.kbdAnswers := rfl
@[simp] theorem State.setDirty_reg (s : State) (b : Bool) (q : Reg) : (s.setDirty b).reg q = s.reg q := rfl
@[simp] theorem State.setDirty_pc (s : State) (b : Bool) : (s.setDirty b).pc = s.pc := rfl

@[simp] theorem State.setHasChar_mem (s : State) (b : Bool) : (s.setHasChar b).mem = s.mem := rfl
@[simp] theorem State.setHasChar_keyboardHasChar (s : State) (b : Bool) : (s.setHasChar b).keyboardHasChar = b := rfl
@[simp] theorem State.setHasChar_displayDirty (s : State) (b : Bool) : (s.setHasChar b).displayDirty = s.displayDirty := rfl
@[simp] theorem State.setHasChar_status (s : State) (b : Bool) : (s.setHasChar b).status = s.status := rfl
@[simp] theorem State.setHasChar_events (s : State) (b : Bool) : (s.setHasChar b).events = s.events := rfl
@[simp] theorem State.setHasChar_cfg (s : State) (b : Bool) : (s.setHasChar b).cfg = s.cfg := rfl
@[simp] theorem State.setHasChar_progLen (s : State) (b : Bool) : (s.setHasChar b).progLen = s.progLen := rfl
@[simp] theorem State.setHasChar_kbdAnswers (s : State) (b : Bool) : (s.setHasChar b).kbdAnswers = s.kbdAnswers := rfl
@[simp] theorem State.setHasChar_reg (s : State) (b : Bool) (q : Reg) : (s.setHasChar b).reg q = s.reg q := rfl
@[simp] theorem State.setHasChar_pc (s : State) (b : Bool) : (s.setHasChar b).pc = s.pc := rfl

@[simp] theorem State.withResult_mem (s : State) (f : Word → Word → Word) (rd rb rc : Reg) : (s.withResult f rd rb rc).mem = s.mem := rfl
@[simp] theorem State.withResult_keyboardHasChar (s : State) (f : Word → Word → Word) (rd rb rc : Reg) : (s.withResult f rd rb rc).keyboardHasChar = s.keyboardHasChar := rfl
@[simp] theorem State.withResult_displayDirty (s : State) (f : Word → Word → Word) (rd rb rc : Reg) : (s.withResult f rd rb rc).displayDirty = s.displayDirty := rfl
@[simp] theorem State.withResult_status (s : State) (f : Word → Word → Word) (rd rb rc : Reg) : (s.withResult f rd rb rc).status = s.status := rfl
@[simp] theorem State.withResult_events (s : State) (f : Word → Word → Word) (rd rb rc : Reg) : (s.withResult f rd rb rc).events = s.events := rfl
@[simp] theorem State.withResult_cfg (s : State) (f : Word → Word → Word) (rd rb rc : Reg) : (s.withResult f rd rb rc).cfg = s.cfg := rfl
@[simp] theorem State.withResult_progLen (s : State) (f : Word → Word → Word) (rd rb rc : Reg) : (s.withResult f rd rb rc).progLen = s.progLen := rfl
@[simp] theorem State.withResult_kbdAnswers (s : State) (f : Word → Word → Word) (rd rb rc : Reg) : (s.withResult f rd rb rc).kbdAnswers = s.kbdAnswers := rfl

@[simp] theorem State.withAnswers_mem (s : State) (ks : List (Option Word)) : (s.withAnswers ks).mem = s.mem := rfl
@[simp] theorem State.withAnswers_keyboardHasChar (s : State) (ks : List (Option Word)) : (s.withAnswers ks).keyboardHasChar = s.keyboardHasChar := rfl
@[simp] theorem State.withAnswers_displayDirty (s : State) (ks : List (Option Word)) : (s.withAnswers ks).displayDirty = s.displayDirty := rfl
@[simp] theorem State.withAnswers_status (s : State) (ks : List (Option Word)) : (s.withAnswers ks).status = s.status := rfl
@[simp] theorem State.withAnswers_events (s : State) (ks : List (Option Word)) : (s.withAnswers ks).events = s.events := rfl
@[simp] theorem State.withAnswers_cfg (s : State) (ks : List (Option Word)) : (s.withAnswers ks).cfg = s.cfg := rfl
@[simp] theorem State.withAnswers_progLen (s : State) (ks : List (Option Word)) : (s.withAnswers ks).progLen = s.progLen := rfl
@[simp] theorem State.withAnswers_kbdAnswers (s : State) (ks : List (Option Word)) : (s.withAnswers ks).kbdAnswers = ks := rfl
@[simp] theorem State.withAnswers_reg (s : State) (ks : List (Option Word)) (q : Reg) : (s.withAnswers ks).reg q = s.reg q := rfl

/-- A register after a write: the written one holds the value, every other one what it held. -/
theorem State.setReg_reg (s : State) (r q : Reg) (v : Word) :
    (s.setReg r v).reg q = if q = r then v else s.reg q := by
  by_cases h : q = r
  · subst h; simp [State.setReg, State.reg]
  · have hne : r.toNat ≠ q.toNat := fun e => h (BitVec.eq_of_toNat_eq e.symm)
    simp [State.setReg, State.reg, h, hne]

@[simp] theorem State.setReg_reg_self (s : State) (r : Reg) (v : Word) : (s.setReg r v).reg r = v := by
  simp [State.setReg_reg]

theorem State.setReg_reg_ne (s : State) {r q : Reg} (v : Word) (h : q ≠ r) : (s.setReg r v).reg q = s.reg q := by
  simp [State.setReg_reg, h]

@[simp] theorem State.setPc_pc (s : State) (v : Word) : (s.setPc v).pc = v := State.setReg_reg_self s pcReg v

theorem State.setPc_reg_ne (s : State) {q : Reg} (v : Word) (h : q ≠ pcReg) : (s.setPc v).reg q = s.reg q :=
  State.setReg_reg_ne s v h

/-- The advanced pc (R15). -/
@[simp] theorem State.advancePc_pc (s : State) : s.advancePc.pc = wrap16 (uval s.pc + 1) := State.setPc_pc _ _

theorem State.advancePc_reg_ne (s : State) {q : Reg} (h : q ≠ pcReg) : s.advancePc.reg q = s.reg q :=
  State.setPc_reg_ne s _ h

/-- A register after an R-type instruction: the destination holds the result (R54, R83). -/
theorem State.withResult_reg (s : State) (f : Word → Word → Word) (rd rb rc q : Reg) :
    (s.withResult f rd rb rc).reg q = if q = rd then f (s.reg rb) (s.reg rc) else s.reg q :=
  State.setReg_reg s rd q _

end Sys2Proof.Machine
end

