-- ==== Sys2Proof/Laws/Ops.lean ====
section
/-! SUPPORT. One lemma per shared operation that says once what it can do: the devices, the branch, the whole of exec,
and the cycle. Later proofs cite these instead of unfolding the operations. -/

namespace Sys2Proof.Machine

/-! The video side effect of a store, and the store with it (R91, R171). -/

theorem State.noteStore_video {s : State} {a v : Word} (h : inVideo s.cfg a = true) :
    s.noteStore a v = (s.setDirty true).emit (.videoWrite a v) := by simp [State.noteStore, h]

theorem State.noteStore_plain {s : State} {a v : Word} (h : inVideo s.cfg a = false) : s.noteStore a v = s := by
  simp [State.noteStore, h]

/-- A store changes one word of memory, and below the video region nothing else (R91). -/
theorem State.memWrite_plain {s : State} {a v : Word} (h : inVideo s.cfg a = false) : s.memWrite a v = s.store a v :=
  State.noteStore_plain h

/-- A store into the video region also marks the display dirty and emits its event (R171). -/
theorem State.memWrite_video {s : State} {a v : Word} (h : inVideo s.cfg a = true) :
    s.memWrite a v = ((s.store a v).setDirty true).emit (.videoWrite a v) :=
  State.noteStore_video (s := s.store a v) h

@[simp] theorem State.memWrite_mem (s : State) (a v : Word) : (s.memWrite a v).mem = s.mem.write (uval a) v := by
  cases h : inVideo s.cfg a <;> simp [State.memWrite_plain, State.memWrite_video, h]

@[simp] theorem State.memWrite_reg (s : State) (a v : Word) (q : Reg) : (s.memWrite a v).reg q = s.reg q := by
  cases h : inVideo s.cfg a <;> simp [State.memWrite_plain, State.memWrite_video, h]

@[simp] theorem State.memWrite_status (s : State) (a v : Word) : (s.memWrite a v).status = s.status := by
  cases h : inVideo s.cfg a <;> simp [State.memWrite_plain, State.memWrite_video, h]

@[simp] theorem State.memWrite_cfg (s : State) (a v : Word) : (s.memWrite a v).cfg = s.cfg := by
  cases h : inVideo s.cfg a <;> simp [State.memWrite_plain, State.memWrite_video, h]

@[simp] theorem State.memWrite_progLen (s : State) (a v : Word) : (s.memWrite a v).progLen = s.progLen := by
  cases h : inVideo s.cfg a <;> simp [State.memWrite_plain, State.memWrite_video, h]

@[simp] theorem State.memWrite_kbdAnswers (s : State) (a v : Word) : (s.memWrite a v).kbdAnswers = s.kbdAnswers := by
  cases h : inVideo s.cfg a <;> simp [State.memWrite_plain, State.memWrite_video, h]

@[simp] theorem State.memWrite_keyboardHasChar (s : State) (a v : Word) :
    (s.memWrite a v).keyboardHasChar = s.keyboardHasChar := by
  cases h : inVideo s.cfg a <;> simp [State.memWrite_plain, State.memWrite_video, h]

/-! Render and poll (R172, R175). -/

theorem State.renderIfDirty_clean {s : State} (h : s.displayDirty = false) : s.renderIfDirty = s := by
  simp [State.renderIfDirty, h]

theorem State.renderIfDirty_dirty {s : State} (h : s.displayDirty = true) :
    s.renderIfDirty = (s.emit (.render s.videoSnapshot)).setDirty false := by
  simp [State.renderIfDirty, h]

@[simp] theorem State.renderIfDirty_displayDirty (s : State) : s.renderIfDirty.displayDirty = false := by
  cases h : s.displayDirty <;> simp [State.renderIfDirty, h]

@[simp] theorem State.renderIfDirty_mem (s : State) : s.renderIfDirty.mem = s.mem := by
  cases h : s.displayDirty <;> simp [State.renderIfDirty, h]

@[simp] theorem State.renderIfDirty_reg (s : State) (q : Reg) : s.renderIfDirty.reg q = s.reg q := by
  cases h : s.displayDirty <;> simp [State.renderIfDirty, h]

@[simp] theorem State.renderIfDirty_status (s : State) : s.renderIfDirty.status = s.status := by
  cases h : s.displayDirty <;> simp [State.renderIfDirty, h]

@[simp] theorem State.renderIfDirty_cfg (s : State) : s.renderIfDirty.cfg = s.cfg := by
  cases h : s.displayDirty <;> simp [State.renderIfDirty, h]

@[simp] theorem State.renderIfDirty_progLen (s : State) : s.renderIfDirty.progLen = s.progLen := by
  cases h : s.displayDirty <;> simp [State.renderIfDirty, h]

@[simp] theorem State.renderIfDirty_kbdAnswers (s : State) : s.renderIfDirty.kbdAnswers = s.kbdAnswers := by
  cases h : s.displayDirty <;> simp [State.renderIfDirty, h]

@[simp] theorem State.renderIfDirty_keyboardHasChar (s : State) :
    s.renderIfDirty.keyboardHasChar = s.keyboardHasChar := by
  cases h : s.displayDirty <;> simp [State.renderIfDirty, h]

@[simp] theorem State.pollKeyboard_reg (s : State) (k : Option Word) (q : Reg) : (s.pollKeyboard k).reg q = s.reg q := by
  cases k <;> simp [State.pollKeyboard]

@[simp] theorem State.pollKeyboard_displayDirty (s : State) (k : Option Word) :
    (s.pollKeyboard k).displayDirty = s.displayDirty := by cases k <;> simp [State.pollKeyboard]

@[simp] theorem State.pollKeyboard_keyboardHasChar (s : State) (k : Option Word) :
    (s.pollKeyboard k).keyboardHasChar = k.isSome := by cases k <;> simp [State.pollKeyboard]

@[simp] theorem State.pollKeyboard_status (s : State) (k : Option Word) : (s.pollKeyboard k).status = s.status := by
  cases k <;> simp [State.pollKeyboard]

@[simp] theorem State.pollKeyboard_events (s : State) (k : Option Word) : (s.pollKeyboard k).events = s.events := by
  cases k <;> simp [State.pollKeyboard]

@[simp] theorem State.pollKeyboard_cfg (s : State) (k : Option Word) : (s.pollKeyboard k).cfg = s.cfg := by
  cases k <;> simp [State.pollKeyboard]

@[simp] theorem State.pollKeyboard_progLen (s : State) (k : Option Word) : (s.pollKeyboard k).progLen = s.progLen := by
  cases k <;> simp [State.pollKeyboard]

@[simp] theorem State.pollKeyboard_kbdAnswers (s : State) (k : Option Word) :
    (s.pollKeyboard k).kbdAnswers = s.kbdAnswers := by cases k <;> simp [State.pollKeyboard]

/-- What the poll does to memory: at most the keyboard word changes (R175). -/
theorem State.pollKeyboard_read (s : State) (k : Option Word) (a : Nat) :
    (s.pollKeyboard k).mem.read a = if a = uval (kbdAddr s.cfg) then k.getD (s.mem.read a) else s.mem.read a := by
  cases k <;> simp [State.pollKeyboard, Memory.read_write]

theorem State.pollKeyboard_wf {s : State} (k : Option Word) (h : s.mem.wf = true) : (s.pollKeyboard k).mem.wf = true := by
  cases k
  · exact h
  · exact Memory.wf_write _ h (uval_lt _)

/-! The answers used up by a cycle. -/

theorem State.dropAnswer_running {s : State} (h : s.status = .running) :
    s.dropAnswer = s.withAnswers s.kbdAnswers.tail := by simp [State.dropAnswer, h]

theorem State.dropAnswer_halted {s : State} {why : Halt} (h : s.status = .halted why) : s.dropAnswer = s := by
  simp [State.dropAnswer, h]

/-- Using up an answer changes the list of answers and nothing else. -/
theorem State.dropAnswer_eq (s : State) : ∃ ks, s.dropAnswer = s.withAnswers ks := by
  by_cases h : s.status = .running
  · exact ⟨_, State.dropAnswer_running h⟩
  · exact ⟨s.kbdAnswers, by simp only [State.dropAnswer, if_neg h]; rfl⟩

@[simp] theorem State.dropAnswer_reg (s : State) (q : Reg) : s.dropAnswer.reg q = s.reg q := by
  obtain ⟨ks, h⟩ := s.dropAnswer_eq; rw [h]; rfl

@[simp] theorem State.dropAnswer_mem (s : State) : s.dropAnswer.mem = s.mem := by
  obtain ⟨ks, h⟩ := s.dropAnswer_eq; rw [h]; rfl

@[simp] theorem State.dropAnswer_status (s : State) : s.dropAnswer.status = s.status := by
  obtain ⟨ks, h⟩ := s.dropAnswer_eq; rw [h]; rfl

@[simp] theorem State.dropAnswer_displayDirty (s : State) : s.dropAnswer.displayDirty = s.displayDirty := by
  obtain ⟨ks, h⟩ := s.dropAnswer_eq; rw [h]; rfl

@[simp] theorem State.dropAnswer_keyboardHasChar (s : State) : s.dropAnswer.keyboardHasChar = s.keyboardHasChar := by
  obtain ⟨ks, h⟩ := s.dropAnswer_eq; rw [h]; rfl

@[simp] theorem State.dropAnswer_events (s : State) : s.dropAnswer.events = s.events := by
  obtain ⟨ks, h⟩ := s.dropAnswer_eq; rw [h]; rfl

@[simp] theorem State.dropAnswer_cfg (s : State) : s.dropAnswer.cfg = s.cfg := by
  obtain ⟨ks, h⟩ := s.dropAnswer_eq; rw [h]; rfl

@[simp] theorem State.dropAnswer_progLen (s : State) : s.dropAnswer.progLen = s.progLen := by
  obtain ⟨ks, h⟩ := s.dropAnswer_eq; rw [h]; rfl

/-! The branch (R100 to R102). -/

theorem State.branchIf_eq (s : State) (taken : Bool) (rc : Reg) :
    s.branchIf taken rc = if taken then s.setReg pcReg (s.branchTarget rc) else s := by cases taken <;> rfl

/-! All of exec: a next state of one of four forms. -/

/-- Executing an instruction always answers a next state (R36, R60, R169): the state itself, with at most its
destination register written, with one word stored, or, for a `div` by zero only, with the exception taken. -/
theorem exec_cases (i : Instr) (s : State) :
    exec i s = .next s ∨
    (∃ r v, destReg i = some r ∧ exec i s = .next (s.setReg r v)) ∨
    (∃ rs ra, i = .sw rs ra ∧ exec i s = .next (s.memWrite (s.reg ra) (s.reg rs))) ∨
    (∃ rd rb rc, i = .div rd rb rc ∧ s.reg rc = 0#16 ∧ exec i s = .next s.raiseDivideByZero) := by
  cases i with
  | nop => exact .inl rfl
  | sw rs ra => exact .inr (.inr (.inl ⟨rs, ra, rfl, rfl⟩))
  | beq ra rb rc =>
    by_cases h : (s.reg ra == s.reg rb) = true
    · exact .inr (.inl ⟨pcReg, s.branchTarget rc, rfl, by simp [exec, execBeq, State.branchIf_eq, h]⟩)
    · exact .inl (by simp [exec, execBeq, State.branchIf_eq, h])
  | bne ra rb rc =>
    by_cases h : (s.reg ra != s.reg rb) = true
    · exact .inr (.inl ⟨pcReg, s.branchTarget rc, rfl, by simp [exec, execBne, State.branchIf_eq, h]⟩)
    · exact .inl (by simp [exec, execBne, State.branchIf_eq, h])
  | div rd rb rc =>
    by_cases h : s.reg rc = 0#16
    · exact .inr (.inr (.inr ⟨rd, rb, rc, rfl, h, by simp [exec, execDiv, h]⟩))
    · exact .inr (.inl ⟨rd, _, rfl, by simp only [exec, execDiv, h, if_false]; rfl⟩)
  | lw rd _ => exact .inr (.inl ⟨rd, _, rfl, rfl⟩)
  | lui rd _ => exact .inr (.inl ⟨rd, _, rfl, rfl⟩)
  | ori rd _ => exact .inr (.inl ⟨rd, _, rfl, rfl⟩)
  | sgt rd _ _ => exact .inr (.inl ⟨rd, _, rfl, rfl⟩)
  | seq rd _ _ => exact .inr (.inl ⟨rd, _, rfl, rfl⟩)
  | nand rd _ _ => exact .inr (.inl ⟨rd, _, rfl, rfl⟩)
  | sll rd _ _ => exact .inr (.inl ⟨rd, _, rfl, rfl⟩)
  | srl rd _ _ => exact .inr (.inl ⟨rd, _, rfl, rfl⟩)
  | add rd _ _ => exact .inr (.inl ⟨rd, _, rfl, rfl⟩)
  | sub rd _ _ => exact .inr (.inl ⟨rd, _, rfl, rfl⟩)
  | mul rd _ _ => exact .inr (.inl ⟨rd, _, rfl, rfl⟩)

/-! The cycle and the step (R80, R165, R167). -/

theorem State.endCycle_running {s : State} (k : Option Word) (h : s.status = .running) :
    s.endCycle k = s.renderIfDirty.pollKeyboard k := by simp [State.endCycle, h]

theorem State.endCycle_halted {s : State} {why : Halt} (k : Option Word) (h : s.status = .halted why) :
    s.endCycle k = s := by simp [State.endCycle, h]

@[simp] theorem State.endCycle_reg (s : State) (k : Option Word) (q : Reg) : (s.endCycle k).reg q = s.reg q := by
  cases h : s.status with
  | running => simp [State.endCycle_running k h]
  | halted why => simp [State.endCycle_halted k h]

@[simp] theorem State.endCycle_status (s : State) (k : Option Word) : (s.endCycle k).status = s.status := by
  cases h : s.status with
  | running => simp [State.endCycle_running k h, h]
  | halted why => simp [State.endCycle_halted k h, h]

@[simp] theorem State.endCycle_cfg (s : State) (k : Option Word) : (s.endCycle k).cfg = s.cfg := by
  cases h : s.status with
  | running => simp [State.endCycle_running k h]
  | halted why => simp [State.endCycle_halted k h]

@[simp] theorem State.endCycle_progLen (s : State) (k : Option Word) : (s.endCycle k).progLen = s.progLen := by
  cases h : s.status with
  | running => simp [State.endCycle_running k h]
  | halted why => simp [State.endCycle_halted k h]

/-- A halted machine has no cycle (R167). -/
theorem step_halted {s : State} {why : Halt} (h : s.status = .halted why) : step s = .fault (.halted why) := by
  simp [step, cycleFromAnswers, cycle, h]

/-- The halting check (R165). -/
theorem step_outside {s : State} (h : s.status = .running) (hp : s.inProgram s.pc = false) :
    step s = .next (s.halt .pcOutOfProgram) := by
  simp [step, cycleFromAnswers, cycle, h, hp, State.dropAnswer]

/-- A cycle that fetches runs the decoded instruction on the state with the pc advanced, then ends the cycle. -/
theorem step_fetches {s t : State} (h : s.fetches) (he : exec (decode s.fetch) s.advancePc = .next t) :
    step s = .next (t.endCycle s.nextAnswer).dropAnswer := by
  simp [step, cycleFromAnswers, cycle, h.1, h.2, he]

/-- Everything a step that answers a next state can be: the halting check, or a fetched instruction executed. -/
theorem step_cases {s t : State} (h : step s = .next t) :
    (s.status = .running ∧ s.inProgram s.pc = false ∧ t = s.halt .pcOutOfProgram) ∨
    (s.fetches ∧ ∃ e, exec (decode s.fetch) s.advancePc = .next e ∧ t = (e.endCycle s.nextAnswer).dropAnswer) := by
  cases hs : s.status with
  | halted why => rw [step_halted hs] at h; cases h
  | running =>
    cases hp : s.inProgram s.pc with
    | false =>
      rw [step_outside hs hp] at h
      cases h
      exact .inl ⟨rfl, rfl, rfl⟩
    | true =>
      obtain ⟨e, he⟩ : ∃ e, exec (decode s.fetch) s.advancePc = .next e := by
        rcases exec_cases (decode s.fetch) s.advancePc with h | ⟨_, _, _, h⟩ | ⟨_, _, _, h⟩ | ⟨_, _, _, _, _, h⟩ <;>
          exact ⟨_, h⟩
      rw [step_fetches ⟨hs, hp⟩ he] at h
      cases h
      exact .inr ⟨⟨hs, hp⟩, e, he, rfl⟩

end Sys2Proof.Machine
end

