-- ==== Sys2Proof/Laws/PerInstr.lean ====
section
/-! SUPPORT. Facts stated of every instruction, one lemma per constructor. Family `OpcodeNibble`: the word an instruction
encodes to passes the mask-and-match test of its own opcode number in the opcode map (spec/30_encoding.md R55, R58). -/

namespace Sys2Proof.Laws

/-- The mask-and-match test of a word asks for its opcode field. -/
theorem selects_of_opcodeField {w : Word} {k : BitVec 4} (h : opcodeField w = k) : selects k w = true := by
  subst h
  simp only [selects, beq_iff_eq, opcodeField]
  ext i hi
  simp only [BitVec.getElem_and, BitVec.getElem_shiftLeft, BitVec.getElem_setWidth, BitVec.getLsbD_extractLsb']
  rcases lt_or_ge i 12 with h | h
  · have hz : (0xF000#16)[i] = false := by interval_cases i <;> simp
    simp [h, hz]
  · have ho : (0xF000#16)[i] = true := by interval_cases i <;> simp
    have hs : 12 + (i - 12) = i := by omega
    simp [hs, ho, show ¬ i < 12 by omega, show i - 12 < 4 by omega, BitVec.getLsbD_eq_getElem hi]

theorem selects_encodeR (op a b c : Int) : selects (BitVec.ofInt 4 op) (encodeR op a b c) = true := by
  apply selects_of_opcodeField
  ext i hi
  simp only [opcodeField, encodeR, BitVec.getElem_extractLsb', BitVec.getLsbD_append]
  simp [show ¬ 12 + i < 4 by omega, show ¬ 12 + i - 4 < 4 by omega, show ¬ 12 + i - 4 - 4 < 4 by omega,
    show 12 + i - 4 - 4 - 4 = i by omega, BitVec.getLsbD_eq_getElem hi]

theorem selects_encodeI (op a imm : Int) : selects (BitVec.ofInt 4 op) (encodeI op a imm) = true := by
  apply selects_of_opcodeField
  ext i hi
  simp only [opcodeField, encodeI, BitVec.getElem_extractLsb', BitVec.getLsbD_append]
  simp [show ¬ 12 + i < 8 by omega, show ¬ 12 + i - 8 < 4 by omega, show 12 + i - 8 - 4 = i by omega,
    BitVec.getLsbD_eq_getElem hi]

/-- The encoded word is selected by the instruction's own opcode number (R58). -/
def OpcodeNibble.Statement (i : Instr) : Prop := selects (BitVec.ofInt 4 i.toLogical.op) (encode i) = true

theorem OpcodeNibble.nop : OpcodeNibble.Statement .nop := by unfold OpcodeNibble.Statement; decide
theorem OpcodeNibble.lw (rd ra : Reg) : OpcodeNibble.Statement (.lw rd ra) := selects_encodeR 1 _ _ _
theorem OpcodeNibble.sw (rs ra : Reg) : OpcodeNibble.Statement (.sw rs ra) := selects_encodeR 2 _ _ _
theorem OpcodeNibble.beq (ra rb rc : Reg) : OpcodeNibble.Statement (.beq ra rb rc) := selects_encodeR 3 _ _ _
theorem OpcodeNibble.bne (ra rb rc : Reg) : OpcodeNibble.Statement (.bne ra rb rc) := selects_encodeR 4 _ _ _
theorem OpcodeNibble.lui (rd : Reg) (imm : Imm8) : OpcodeNibble.Statement (.lui rd imm) := selects_encodeI 5 _ _
theorem OpcodeNibble.ori (rd : Reg) (imm : Imm8) : OpcodeNibble.Statement (.ori rd imm) := selects_encodeI 6 _ _
theorem OpcodeNibble.sgt (rd rb rc : Reg) : OpcodeNibble.Statement (.sgt rd rb rc) := selects_encodeR 7 _ _ _
theorem OpcodeNibble.seq (rd rb rc : Reg) : OpcodeNibble.Statement (.seq rd rb rc) := selects_encodeR 8 _ _ _
theorem OpcodeNibble.nand (rd rb rc : Reg) : OpcodeNibble.Statement (.nand rd rb rc) := selects_encodeR 9 _ _ _
theorem OpcodeNibble.sll (rd rb rc : Reg) : OpcodeNibble.Statement (.sll rd rb rc) := selects_encodeR 10 _ _ _
theorem OpcodeNibble.srl (rd rb rc : Reg) : OpcodeNibble.Statement (.srl rd rb rc) := selects_encodeR 11 _ _ _
theorem OpcodeNibble.add (rd rb rc : Reg) : OpcodeNibble.Statement (.add rd rb rc) := selects_encodeR 12 _ _ _
theorem OpcodeNibble.sub (rd rb rc : Reg) : OpcodeNibble.Statement (.sub rd rb rc) := selects_encodeR 13 _ _ _
theorem OpcodeNibble.mul (rd rb rc : Reg) : OpcodeNibble.Statement (.mul rd rb rc) := selects_encodeR 14 _ _ _
theorem OpcodeNibble.div (rd rb rc : Reg) : OpcodeNibble.Statement (.div rd rb rc) := selects_encodeR 15 _ _ _

end Sys2Proof.Laws
end

