-- ==== Sys2Proof/Laws/Words.lean ====
section
/-! SUPPORT. What the narrowing `wrap16` is on the sums the machine forms, and the advanced pc as a word sum. -/

namespace Sys2Proof.Machine

theorem wrap16_toNat (n : Int) : ((wrap16 n).toNat : Int) = n % 65536 := by
  simp only [wrap16, BitVec.toNat_ofInt]
  omega

/-- A word is the pattern of its own value. -/
theorem wrap16_toNat_self (v : Word) : wrap16 v.toNat = v := by
  have h := wrap16_toNat v.toNat
  have hv := v.isLt
  apply BitVec.eq_of_toNat_eq
  omega

theorem wrap16_add (a b : Word) : wrap16 ((uval a : Int) + uval b) = a + b := by
  have h := wrap16_toNat ((uval a : Int) + uval b)
  apply BitVec.eq_of_toNat_eq
  rw [BitVec.toNat_add]
  simp only [uval] at h ⊢
  omega

/-- The pc advance as a word sum (R15, R16). -/
theorem wrap16_succ (v : Word) : wrap16 (uval v + 1) = v + 1 := wrap16_add v 1

/-- The address before an advanced pc (R143, R160). -/
theorem wrap16_pred (v : Word) : wrap16 ((uval v : Int) - 1) = v - 1 := by
  have h := wrap16_toNat ((uval v : Int) - 1)
  have hv := v.isLt
  apply BitVec.eq_of_toNat_eq
  rw [BitVec.toNat_sub, show (1 : Word).toNat = 1 from rfl]
  simp only [uval] at h ⊢
  omega

/-- Step 4 of the cycle as a word sum (R15). -/
theorem State.advancePc_eq (s : State) : s.advancePc = s.setPc (s.pc + 1) := by
  simp only [State.advancePc, wrap16_succ]

/-- The keyboard address of a legal configuration, as a number (R3). -/
theorem kbdAddr_toNat {c : Cfg} (h : 1 ≤ c.videoBase.toNat) : (kbdAddr c).toNat = c.videoBase.toNat - 1 := by
  have hw := wrap16_toNat ((uval c.videoBase : Int) - 1)
  have hv := c.videoBase.isLt
  simp only [kbdAddr, uval] at hw ⊢
  omega

/-- The halting check as a comparison of numbers (R165). -/
theorem State.inProgram_iff (s : State) (a : Word) :
    s.inProgram a = true ↔ s.cfg.pcInit.toNat ≤ a.toNat ∧ a.toNat < s.cfg.pcInit.toNat + s.progLen := by
  rw [State.inProgram, Bool.and_eq_true, decide_eq_true_eq, decide_eq_true_eq]

theorem State.inProgram_eq_false_iff (s : State) (a : Word) :
    s.inProgram a = false ↔ a.toNat < s.cfg.pcInit.toNat ∨ s.cfg.pcInit.toNat + s.progLen ≤ a.toNat := by
  rw [← Bool.not_eq_true, State.inProgram_iff]
  omega

/-- The video region as a comparison of numbers (R171). -/
theorem inVideo_iff (c : Cfg) (a : Word) : inVideo c a = true ↔ c.videoBase.toNat ≤ a.toNat := by
  rw [inVideo, decide_eq_true_eq]

theorem inVideo_eq_false_iff (c : Cfg) (a : Word) : inVideo c a = false ↔ a.toNat < c.videoBase.toNat := by
  rw [← Bool.not_eq_true, inVideo_iff]
  omega

end Sys2Proof.Machine
end

