-- ==== Sys2Proof/Tests/Slice0.lean ====
section
/-! SUPPORT. The model's own tests: expected values from spec/95_test_vectors.md or worked by hand from the named rule;
the smoke tests of WellFormed; and, for every obligation with hypotheses, a named witness that meets them together. -/

namespace Sys2Proof.Tests

open Sys2Proof.Machine

/-- The state of a next answer. -/
def stateOf (o : Host.Outcome State Fault Refusal) : Option State :=
  match o with
  | .next t => some t
  | .fault _ => none
  | .refused _ => none

/-- One step, where it answers a next state; else the state itself. -/
def after (s : State) : State := (stateOf (step s)).getD s

/-- The reset state with a pc, some registers and memory words set, and a word placed where the next step fetches. -/
def scene (pc w : Word) (regs : List (Reg × Word)) (cells : List (Word × Word)) : State :=
  let s := cells.foldl (fun s c => s.store c.1 c.2) State.reset
  ((regs.foldl (fun s r => s.setReg r.1 r.2) s).setPc pc).placeWord w

/-- The register a one-instruction scene at 0x0100 leaves. -/
def regAfter (w : Word) (regs : List (Reg × Word)) (cells : List (Word × Word)) (r : Reg) : Word :=
  (after (scene 0x0100#16 w regs cells)).reg r

/-- A scene whose region covers the whole space but its last word (for branches and their targets). -/
def wide (s : State) : State := { s with cfg := { s.cfg with pcInit := 0x0000#16 }, progLen := 65535 }

/-! Decoding: a word of each constructor, written out from the encoding tables R52 to R54, R58 (95 section 2.1). -/

theorem test_decode_nop : decode 0x0000#16 = .nop := by decide
theorem test_decode_lw : decode 0x1D5F#16 = .lw 13 5 := by decide
theorem test_decode_sw : decode 0x2C1F#16 = .sw 12 1 := by decide
theorem test_decode_beq : decode 0x3ABC#16 = .beq 10 11 12 := by decide
theorem test_decode_bne : decode 0x4C0F#16 = .bne 12 0 15 := by decide
theorem test_decode_lui : decode 0x51F8#16 = .lui 1 0xF8 := by decide
theorem test_decode_ori : decode 0x6FFD#16 = .ori 15 0xFD := by decide
theorem test_decode_sgt : decode 0x76AB#16 = .sgt 6 10 11 := by decide
theorem test_decode_seq : decode 0x87AA#16 = .seq 7 10 10 := by decide
theorem test_decode_nand : decode 0x98AB#16 = .nand 8 10 11 := by decide
theorem test_decode_sll : decode 0xACAB#16 = .sll 12 10 11 := by decide
theorem test_decode_srl : decode 0xBCAB#16 = .srl 12 10 11 := by decide
theorem test_decode_add : decode 0xCCAB#16 = .add 12 10 11 := by decide
theorem test_decode_sub : decode 0xDDAB#16 = .sub 13 10 11 := by decide
theorem test_decode_mul : decode 0xEEAB#16 = .mul 14 10 11 := by decide
theorem test_decode_div : decode 0xFFAB#16 = .div 15 10 11 := by decide

/-- 95 section 2.1: the canonical words. -/
theorem test_encode_words :
    [encode .nop, encode (.lw 13 5), encode (.bne 12 0 15), encode (.ori 1 0x30), encode (.div 15 10 11)]
      = [0x0000#16, 0x1D50#16, 0x4C0F#16, 0x6130#16, 0xFFAB#16] := by decide

/-- 95 section 2.1: the codec masks out-of-range fields. -/
theorem test_encode_masks :
    [encodeR 12 28 10 11, encodeI 6 1 0x130, encodeI 6 1 (-1), encodeR 17 0 0 0]
      = [0xCCAB#16, 0x6130#16, 0x61FF#16, 0x1000#16] := by decide

/-- A row of the table read by the decoder (opcode_table.json, `lui`). -/
theorem test_decodeTableWord : decodeTableWord 16 0x5A01 = some (.lui 10 1) := by decide

/-! WellFormed: an ill-formed term for each check (R57, R3, R192). -/

theorem test_wf_good : Logical.wf { op := 12, a := 12, b := 10, c := 11 } = true := by decide
theorem test_wf_opcode : Logical.wf { op := 16 } = false := by decide
theorem test_wf_opcode_negative : Logical.wf { op := -1 } = false := by decide
theorem test_wf_nop_field : Logical.wf { op := 0, a := 1 } = false := by decide
theorem test_wf_lw_unused : Logical.wf { op := 1, a := 1, b := 2, c := 3 } = false := by decide
theorem test_wf_reg_a : Logical.wf { op := 12, a := 16 } = false := by decide
theorem test_wf_reg_b : Logical.wf { op := 3, b := -1 } = false := by decide
theorem test_wf_reg_c : Logical.wf { op := 15, c := 16 } = false := by decide
theorem test_wf_imm : Logical.wf { op := 6, a := 1, imm := 256 } = false := by decide
theorem test_wf_imm_negative : Logical.wf { op := 5, a := 1, imm := -1 } = false := by decide
theorem test_wf_imm_unused_b : Logical.wf { op := 5, a := 1, b := 1 } = false := by decide
theorem test_wf_imm_of_rtype : Logical.wf { op := 12, imm := 1 } = false := by decide
theorem test_cfg_illegal : Cfg.wf { Cfg.reference with videoBase := 0#16 } = false := by decide
theorem test_cfg_legal : Cfg.wf { Cfg.reference with videoBase := 1#16 } = true := by decide
theorem test_image_too_long : imageFits 0xFFFF#16 2 = false := by decide
theorem test_image_fits_edge : imageFits 0xFFFF#16 1 = true := by decide

/-! One step of each instruction (95 sections 2.2 to 2.9, under configuration T). -/

/-- 95 section 2.2. -/
theorem test_nop_advances : (after (scene 0x0100#16 0x0FFF#16 [] [])).pc = 0x0101#16 := by decide
/-- 95 section 2.2: the pc wraps. -/
theorem test_nop_wraps : (after (scene 0xFFFF#16 0x0000#16 [] [])).pc = 0x0000#16 := by decide
/-- 95 section 2.3 row 2: the address is the old value of the destination. -/
theorem test_lw_old_address : regAfter 0x1CC0#16 [(12, 0x4001#16)] [(0x4001#16, 0x2222#16)] 12 = 0x2222#16 := by decide
/-- 95 section 2.3 row 4: an indirect jump. -/
theorem test_lw_jumps : regAfter 0x1200#16 [] [(0x0000#16, 0x0105#16)] 2 = 0x0105#16 := by decide
/-- 95 section 2.3 row 8: a video store renders and leaves the display clean. -/
theorem test_sw_video :
    let s := scene 0x0100#16 0x2D10#16 [(13, 0x0041#16), (1, 0xFFFE#16)] []
    let t := after { s with cfg := { s.cfg with videoBase := 0xFFFE#16 } }
    t.events = [.videoWrite 0xFFFE#16 0x0041#16, .render [0x0041#16, 0x0000#16]] ∧ t.displayDirty = false := by decide
/-- 95 section 2.3 row 10: the poll overwrites a store to the keyboard word. -/
theorem test_sw_keyboard_overwritten :
    let t := after ((scene 0x0100#16 0x2D10#16 [(13, 0x0007#16), (1, 0xF82F#16)] []).withAnswers [some 0x0058#16])
    t.load 0xF82F#16 = 0x0058#16 ∧ t.keyboardHasChar = true ∧ t.kbdAnswers = [] := by decide
/-- 95 section 2.4 row 5: the target wraps. -/
theorem test_beq_wraps : (after (scene 0x0200#16 0x3ABC#16 [(10, 5#16), (11, 5#16), (12, 0xFE00#16)] [])).pc = 0x0001#16 := by
  decide
/-- 95 section 2.4 row 8: register 2 compares as the advanced pc. -/
theorem test_beq_pc_source : (after (scene 0x0200#16 0x32AC#16 [(10, 0x0201#16), (12, 4#16)] [])).pc = 0x0205#16 := by decide
/-- 95 section 2.4 row 12. -/
theorem test_bne_taken : (after (scene 0x0200#16 0x4ABC#16 [(10, 0x8000#16), (12, 0xFFFD#16)] [])).pc = 0x01FE#16 := by
  decide
/-- 95 section 2.4 row 11. -/
theorem test_bne_never : (after (scene 0x0200#16 0x4AAC#16 [(10, 7#16), (12, 3#16)] [])).pc = 0x0201#16 := by decide
/-- 95 section 2.5 row 1. -/
theorem test_lui : regAfter 0x5A01#16 [(10, 0xABCD#16)] [] 10 = 0x0100#16 := by decide
/-- 95 section 2.5 row 5: a jump. -/
theorem test_lui_jumps : regAfter 0x5202#16 [] [] 2 = 0x0200#16 := by decide
/-- 95 section 2.5 row 7: zero-extended. -/
theorem test_ori_zero_extends : regAfter 0x6AFF#16 [(10, 0x0100#16)] [] 10 = 0x01FF#16 := by decide
/-- 95 section 2.9, V-Z1: register 0 is written. -/
theorem test_ori_zero_register : regAfter 0x6005#16 [] [] 0 = 0x0005#16 := by decide
/-- 95 section 2.6 rows 4 and 6. -/
theorem test_sgt_signed :
    regAfter 0x7CAB#16 [(10, 0xFFFF#16), (11, 1#16)] [] 12 = 0#16 ∧
      regAfter 0x7CAB#16 [(10, 0x7FFF#16), (11, 0x8000#16)] [] 12 = 1#16 := by decide
/-- 95 section 2.6 rows 8 and 11. -/
theorem test_seq :
    regAfter 0x8CAB#16 [(10, 0x8000#16), (11, 0x8000#16)] [] 12 = 1#16 ∧
      regAfter 0x8CAB#16 [(10, 0x00FF#16), (11, 0xFF00#16)] [] 12 = 0#16 := by decide
/-- 95 section 2.7. -/
theorem test_nand : regAfter 0x9CAB#16 [(10, 0xF0F0#16), (11, 0xFF00#16)] [] 12 = 0x0FFF#16 := by decide
/-- 95 section 2.7: the amount is the whole register, not reduced modulo 16. -/
theorem test_sll :
    regAfter 0xACAB#16 [(10, 0x012C#16), (11, 7#16)] [] 12 = 0x9600#16 ∧
      regAfter 0xACAB#16 [(10, 0x1234#16), (11, 0x0011#16)] [] 12 = 0#16 := by decide
/-- 95 section 2.7: zeros enter at the top. -/
theorem test_srl :
    regAfter 0xBCAB#16 [(10, 0xFFFF#16), (11, 1#16)] [] 12 = 0x7FFF#16 ∧
      regAfter 0xBCAB#16 [(10, 0x1234#16), (11, 0xFFFF#16)] [] 12 = 0#16 := by decide
/-- 95 section 2.8. -/
theorem test_add_wraps : regAfter 0xCCAB#16 [(10, 0x7FFF#16), (11, 1#16)] [] 12 = 0x8000#16 := by decide
/-- 95 section 2.9, V-PC2: a jump relative to the advanced pc. -/
theorem test_add_pc : regAfter 0xC22C#16 [(12, 4#16)] [] 2 = 0x0105#16 := by decide
/-- 95 section 2.8: field B minus field C. -/
theorem test_sub_order : regAfter 0xDCAB#16 [(10, 3#16), (11, 5#16)] [] 12 = 0xFFFE#16 := by decide
/-- 95 section 2.8. -/
theorem test_mul_low_half :
    regAfter 0xECAB#16 [(10, 0x7FFF#16), (11, 0x7FFF#16)] [] 12 = 1#16 ∧
      regAfter 0xECAB#16 [(10, 0x8000#16), (11, 0xFFFF#16)] [] 12 = 0x8000#16 := by decide
/-- 95 section 2.8: toward zero, and the wrapped quotient. -/
theorem test_div :
    regAfter 0xFCAB#16 [(10, 0xFFF9#16), (11, 2#16)] [] 12 = 0xFFFD#16 ∧
      regAfter 0xFCAB#16 [(10, 0x8000#16), (11, 0xFFFF#16)] [] 12 = 0x8000#16 := by decide
/-- 95 program P4: the fault, with the pc left advanced. -/
theorem test_div_by_zero :
    let t := after ((scene 0x0106#16 0xFDC0#16 [(12, 9#16)] []).withAnswers [some 1#16])
    t.status = .halted (.divideByZero 0x0106#16) ∧ t.pc = 0x0107#16 ∧ t.reg 13 = 0#16 ∧ t.kbdAnswers = [some 1#16] := by
  decide

/-! Halting, reset, loading (95 section 2.10). -/

/-- 95 section 2.10 row 3, and reset with no program (row 1). -/
theorem test_halts_outside : (after State.reset).status = .halted .pcOutOfProgram ∧ (after State.reset).pc = 0x0100#16 := by
  decide
/-- 95 section 2.10 row 4. -/
theorem test_reset_and_load :
    (match resetAndLoad Cfg.reference [0x5A01#16, 0#16, 0x6A2C#16] [0x1111#16, 0x2222#16] with
      | .ok s => s.mem == [(0x0100, 0x5A01#16), (0x0102, 0x6A2C#16), (0x4000, 0x1111#16), (0x4001, 0x2222#16)]
      | .error _ => false) = true := by decide
theorem test_load_refuses :
    (match resetAndLoad { Cfg.reference with gpInit := 0xFFFF#16 } [] [1#16, 2#16] with
      | .ok _ => none
      | .error e => some e) = some .dataTooLong := by decide
/-- R196: low byte first; an odd length is malformed. -/
theorem test_image_file :
    wordsOfFile [0xAB#8, 0xCC#8] = .ok [0xCCAB#16] ∧ wordsOfFile [0xAB#8] = .error .oddLength := ⟨rfl, rfl⟩

/-! The assembler (95 V-ASM1 to V-ASM3). -/

/-- The image, or the error, of a source at 0x0100. -/
def asmWords (source : List String) : Option (List Word) := (assemble 0x0100#16 source).toOption
def asmError (source : List String) : Option AsmError :=
  match assemble 0x0100#16 source with
  | .ok _ => none
  | .error e => some e

/-- V-ASM1. -/
theorem test_asm_forward :
    asmWords ["lw $t0, data", "nop", "data: nop"] = some [0x5101#16, 0x6104#16, 0x1C10#16, 0x0000#16, 0x0000#16] := by decide
/-- V-ASM2. -/
theorem test_asm_both :
    asmWords ["top: ori $t0, 1", "add $t1, $zero, end", "add $t2, $zero, top", "nop", "end:"] =
      some [0x6C01#16, 0x5101#16, 0x6108#16, 0xCD01#16, 0x5101#16, 0x6100#16, 0xCE01#16, 0x0000#16] := by decide
/-- V-ASM3. -/
theorem test_asm_errors :
    [asmError ["a: nop", "a: nop"], asmError ["lw $t0, nowhere"], asmError ["mov $t0, $t1"],
      asmError ["add $t0, $foo, $t1"], asmError ["add $t0, $t1"], asmError ["nop $t0"], asmError ["ori $t0, 256"]] =
    [some .duplicateLabel, some .unknownLabel, some .unknownMnemonic, some .unknownRegister, some .operandCountMismatch,
      some .operandCountMismatch, some .fieldOverflow] := by decide
/-- V-ASM3: a line of 81 characters. -/
theorem test_asm_line_too_long : asmError [String.ofList (List.replicate 81 ' ')] = some .lineTooLong := by decide

/-! Witnesses: for each obligation with hypotheses, a state and operands that meet them all. -/

theorem witness_StepRunsDecodedInstruction_fetch :
    let s := scene 0x0100#16 0xCCAB#16 [] []
    s.status = .running ∧ s.cfg.pcInit.toNat ≤ s.pc.toNat ∧ s.pc.toNat < s.cfg.pcInit.toNat + s.progLen := by decide
theorem witness_StepRunsDecodedInstruction_below :
    let s := State.reset.setPc 0x00FF#16
    s.status = .running ∧ s.pc.toNat < s.cfg.pcInit.toNat := by decide
theorem witness_StepRunsDecodedInstruction_above :
    let s := after (scene 0x0100#16 0x0000#16 [] [])
    s.status = .running ∧ s.pc.toNat = s.cfg.pcInit.toNat + s.progLen := by decide
theorem witness_StepRunsDecodedInstruction_halting :
    let s := scene 0x0100#16 0xFDC0#16 [] []
    (stateOf (exec (decode (s.mem.read s.pc.toNat)) (s.setPc (s.pc + 1)))).map (·.status) =
      some (.halted (.divideByZero 0x0100#16)) := by decide
theorem witness_render_dirty : (State.reset.setDirty true).displayDirty = true := rfl
theorem witness_HaltedIsTerminal : (State.reset.halt .pcOutOfProgram).status = .halted .pcOutOfProgram := rfl
theorem witness_EmptyProgramHaltsAtOnce : ∃ s, resetAndLoad Cfg.reference [] [1#16] = .ok s := ⟨_, rfl⟩

/-- A step that answers a next state, from a state that fetches a given instruction. -/
def Fetching (s : State) (i : Instr) : Prop :=
  s.status = .running ∧ s.inProgram s.pc = true ∧ decode (s.mem.read s.pc.toNat) = i ∧ (stateOf (step s)).isSome = true

theorem Fetching.step {s : State} {i : Instr} (h : Fetching s i) : s.fetches ∧ ∃ t, step s = .next t := by
  refine ⟨⟨h.1, h.2.1⟩, ?_⟩
  have h := h.2.2.2
  cases hs : Machine.step s with
  | next t => exact ⟨t, rfl⟩
  | fault f => rw [hs] at h; cases h
  | refused r => rw [hs] at h; cases h

/-- Meets `PcHoldsNextAddress`, `OnlyDivByZeroIsUnsafe`, `ConfigurationIsConstant`, `FlagAndEventsAreUnread`. -/
theorem witness_PcHoldsNextAddress : Fetching (scene 0x0100#16 0xCCAB#16 [] []) (.add 12 10 11) := by
  unfold Fetching; decide
/-- The clauses of `PcHoldsNextAddress` for a branch not taken, at the edge 0xFFFF of the address space. -/
theorem witness_PcHoldsNextAddress_beq :
    let s := scene 0xFFFF#16 0x3ABC#16 [(10, 1#16), (11, 2#16)] []
    Fetching s (.beq 10 11 12) ∧ (s.setPc (s.pc + 1)).reg 10 ≠ (s.setPc (s.pc + 1)).reg 11 := by unfold Fetching; decide
theorem witness_PcHoldsNextAddress_bne :
    let s := scene 0xFFFF#16 0x4ABC#16 [] []
    Fetching s (.bne 10 11 12) ∧ (s.setPc (s.pc + 1)).reg 10 = (s.setPc (s.pc + 1)).reg 11 := by unfold Fetching; decide
theorem witness_NopOnlyAdvances :
    let s := scene 0x0100#16 0x0FFF#16 [] []
    Fetching s .nop ∧ (s.mem.read s.pc.toNat).toNat < 4096 ∧ s.displayDirty = false ∧ s.kbdAnswers.headD none = none := by
  unfold Fetching; decide
theorem witness_LwLoadsWord_decode : (0x1FFF#16).toNat / 4096 = 1 := by decide
theorem witness_SwStoresWord_video :
    let s := State.reset.setReg 1 0xF830#16
    s.cfg.videoBase.toNat ≤ (s.reg 1).toNat := by decide
theorem witness_SwStoresWord_below :
    let s := State.reset.setReg 1 0xF82F#16
    (s.reg 1).toNat < s.cfg.videoBase.toNat := by decide
theorem witness_SwStoresWord_decode : (0x2FFF#16).toNat / 4096 = 2 := by decide
theorem witness_Branch_equal : State.reset.reg 10 = State.reset.reg 11 := by decide
theorem witness_Branch_unequal : State.reset.reg 4 ≠ State.reset.reg 5 := by decide
/-- A taken `beq` whose target leaves the program region. -/
theorem witness_TakenBranchTarget_beq :
    let s := scene 0x0200#16 0x3ABC#16 [(12, 0xFE00#16)] []
    Fetching s (.beq 10 11 12) ∧ (s.setPc (s.pc + 1)).reg 10 = (s.setPc (s.pc + 1)).reg 11 ∧
      (after s).pc.toNat < s.cfg.pcInit.toNat := by unfold Fetching; decide
theorem witness_TakenBranchTarget_bne :
    let s := scene 0x0200#16 0x4ABC#16 [(10, 1#16), (12, 3#16)] []
    Fetching s (.bne 10 11 12) ∧ (s.setPc (s.pc + 1)).reg 10 ≠ (s.setPc (s.pc + 1)).reg 11 ∧
      s.cfg.pcInit.toNat + s.progLen ≤ (after s).pc.toNat := by unfold Fetching; decide
theorem witness_LuiOriBuildsWord : (1 : Reg) ≠ pcReg := by decide
theorem witness_SgtComparesSigned :
    let s := State.reset.setReg 10 0x8000#16
    (s.reg 10).toInt < (s.reg 11).toInt ∧ (s.reg 11).toInt ≤ (s.reg 11).toInt := by decide
theorem witness_shift_below : ((State.reset.setReg 11 15#16).reg 11).toNat < 16 := by decide
theorem witness_shift_from_16 : 16 ≤ ((State.reset.setReg 11 16#16).reg 11).toNat := by decide
theorem witness_DivRoundsTowardZero :
    let s := (State.reset.setReg 10 0x8000#16).setReg 11 0xFFFF#16
    s.reg 11 ≠ 0#16 ∧ s.reg 10 = 0x8000#16 ∧ s.reg 11 = 0xFFFF#16 ∧ ¬ (s.reg 11 = 0x8000#16) := by decide
theorem witness_DivByZeroHalts :
    let s := scene 0x0106#16 0xFDC0#16 [(12, 9#16)] []
    Fetching s (.div 13 12 0) ∧ (s.setPc (s.pc + 1)).reg 0 = 0#16 := by unfold Fetching; decide
theorem witness_OnlyDivideByZeroIsRaised :
    ∃ t, exec (.div 13 12 0) State.reset = .next t ∧ t.status ≠ State.reset.status := ⟨_, rfl, by decide⟩
theorem witness_InstructionsTouchNamedRegisters_write :
    ∃ t, exec (.add 12 10 11) State.reset = .next t ∧ destReg (.add 12 10 11) ≠ some 4 := ⟨_, rfl, by decide⟩
/-- Two states that differ in a register the instruction does not name. -/
theorem witness_InstructionsTouchNamedRegisters_read :
    ∃ t₁ t₂, SameMemory State.reset (State.reset.setReg 7 1#16) ∧
      (∀ q ∈ sourceRegs (.add 12 10 11), State.reset.reg q = (State.reset.setReg 7 1#16).reg q) ∧
      exec (.add 12 10 11) State.reset = .next t₁ ∧ exec (.add 12 10 11) (State.reset.setReg 7 1#16) = .next t₂ ∧
      State.reset.status = .running ∧ t₁.status = .running :=
  ⟨_, _, fun _ => rfl, by decide, rfl, rfl, rfl, rfl⟩
theorem witness_OnlyStoresAndPollWriteMemory_store :
    let s := scene 0x0100#16 0x2C50#16 [(12, 0x0041#16)] []
    Fetching s (.sw 12 5) ∧ (after s).mem.read 0x4000 ≠ s.mem.read 0x4000 := by unfold Fetching; decide
theorem witness_OnlyStoresAndPollWriteMemory_poll :
    let s := (scene 0x0100#16 0x0000#16 [] []).withAnswers [some 0x41#16]
    Fetching s .nop ∧ (after s).mem.read 0xF82F ≠ s.mem.read 0xF82F := by unfold Fetching; decide
theorem witness_Inv_video :
    let s := scene 0x0100#16 0x2D10#16 [(13, 0x0041#16), (1, 0xF830#16)] []
    s.Inv ∧ Fetching s (.sw 13 1) ∧ s.cfg.videoBase.toNat ≤ ((s.setPc (s.pc + 1)).reg 1).toNat := by
  unfold State.Inv Fetching; decide
/-- Meets `RenderFollowsVideoStore`'s last clause: a store one word below the region. -/
theorem witness_Inv_below_video :
    let s := scene 0x0100#16 0x2D10#16 [(13, 0x0041#16), (1, 0xF82F#16)] []
    s.Inv ∧ Fetching s (.sw 13 1) ∧
      ∀ rs ra, decode (s.mem.read s.pc.toNat) = .sw rs ra → ((s.setPc (s.pc + 1)).reg ra).toNat < s.cfg.videoBase.toNat := by
  unfold State.Inv Fetching; decide
theorem witness_KeyboardPollDelivers :
    let s := (scene 0x0100#16 0x0000#16 [] []).withAnswers [some 0x41#16]
    s.cfg.wf = true ∧ Fetching s .nop ∧
      (stateOf (exec (decode (s.mem.read s.pc.toNat)) (s.setPc (s.pc + 1)))).map (·.status) = some .running ∧
      s.kbdAnswers.headD none = some 0x41#16 := by unfold Fetching; decide
theorem witness_KeyboardNeverDivertsControl :
    let s := scene 0x0100#16 0x0000#16 [] []
    Fetching (s.withAnswers [some 1#16]) .nop ∧ Fetching (s.withAnswers []) .nop := by unfold Fetching; decide
theorem witness_FetchSeesStore :
    let s := scene 0x0100#16 0x2C20#16 [(12, 0x6655#16)] []
    Fetching s (.sw 12 2) ∧ (s.setPc (s.pc + 1)).effAddr 2 = (after s).pc ∧ s.kbdAnswers.headD none = none := by
  unfold Fetching; decide
theorem witness_LoadReturnsLastStore : State.reset.reg 10 = State.reset.reg 11 ∧ State.reset.reg 4 ≠ State.reset.reg 11 := by
  decide
theorem witness_StepKeepsLegalState :
    (scene 0x0100#16 0xCCAB#16 [] []).Inv ∧ Fetching (scene 0x0100#16 0xCCAB#16 [] []) (.add 12 10 11) := by
  unfold State.Inv Fetching; decide
theorem witness_ResetIsLegal : Cfg.wf Cfg.reference = true := by decide
theorem witness_LoadedRunsStayLegal : ∃ s, resetAndLoad Cfg.reference [0x5A01#16] [0x1111#16] = .ok s := ⟨_, rfl⟩
theorem witness_StepKeepsEventsPaired :
    let s := scene 0x0100#16 0xCCAB#16 [] []
    s.Inv ∧ pairedEvents s.cfg s.events ∧ Fetching s (.add 12 10 11) :=
  ⟨by unfold State.Inv; decide, trivial, by unfold Fetching; decide⟩
theorem witness_ProgramLoadsAtPcInit :
    State.reset.status = .running ∧ State.reset.pc = State.reset.cfg.pcInit ∧ [0x5A01#16] ≠ [] := by decide
/-- Overlapping images: the data word wins at 0x0101 and the program word stays at 0x0100. -/
theorem witness_ResetAndLoadPlacesImages :
    ∃ s, resetAndLoad { Cfg.reference with gpInit := 0x0101#16 } [1#16, 2#16] [3#16] = .ok s ∧
      s.load 0x0100#16 = 1#16 ∧ s.load 0x0101#16 = 3#16 := ⟨_, rfl, by decide⟩
theorem witness_ImageFileRoundTrip : [1#16, 0xABCD#16][1]? = some 0xABCD#16 := rfl
theorem witness_FieldOverflowIsHardError :
    indexIn registerNames "$t0".toList = some 12 ∧ decimal "256".toList = some 256 ∧ decimal "-1".toList = some (-1) ∧
      decimal "255".toList = some 255 := by decide
theorem witness_LabelMaterialisation : (0x01#8).toNat = (0x0104#16).toNat / 256 ∧ (0x04#8).toNat = (0x0104#16).toNat % 256 := by
  decide
/-- A two-line source whose second line is labelled, after a three-word line. -/
theorem witness_LabelAddressIsTrueOffset :
    ∃ table image, symbolTable 0x100 [⟨none, some (.withLabel 1 [12] ['d'])⟩, ⟨some ['d'], some (.plain (logicalOf 0 []))⟩] =
        .ok table ∧
      emitLines table [⟨none, some (.withLabel 1 [12] ['d'])⟩, ⟨some ['d'], some (.plain (logicalOf 0 []))⟩] = .ok image ∧
      labelAddress table ['d'] = some 0x103 ∧ image.length = 4 := ⟨_, _, rfl, rfl, by decide, rfl⟩
theorem witness_DuplicateLabelIsFatal :
    let lines : List AsmLine := [⟨some ['a'], none⟩, ⟨some ['a'], none⟩]
    lines[0]? = some ⟨some ['a'], none⟩ ∧ lines[1]? = some ⟨some ['a'], none⟩ := by decide
theorem witness_LabelOnBranchMissesLabel : State.reset.reg 0 = State.reset.reg 0 ∧ State.reset.pc ≠ 0#16 := by decide

end Sys2Proof.Tests
end

section
/-! Proofs about the state (spec/10_state.md): where the program counter stands while an instruction executes and after
its cycle. -/

namespace Sys2Proof.Machine

/-- Executing an instruction leaves every register but its destination alone (R13). -/
theorem exec_reg_of_not_destReg {i : Instr} {s e : State} {q : Reg} (h : exec i s = .next e)
    (hq : destReg i ≠ some q) : e.reg q = s.reg q := by
  rcases exec_cases i s with he | ⟨r, v, hd, he⟩ | ⟨rs, ra, -, he⟩ | ⟨rd, rb, rc, -, -, he⟩ <;>
    obtain rfl := Host.Outcome.next.inj (he.symm.trans h)
  case inl => rfl
  case inr.inl =>
    have hne : q ≠ r := fun hqr => hq (hqr ▸ hd)
    exact State.setReg_reg_ne s v hne
  case inr.inr.inl => exact State.memWrite_reg s _ _ q
  case inr.inr.inr => rfl

/-- A `beq` that is not taken changes nothing (R100). -/
theorem exec_beq_not_taken {ra rb : Reg} (rc : Reg) {s : State} (h : s.reg ra ≠ s.reg rb) :
    exec (.beq ra rb rc) s = .next s := by
  simp [exec, execBeq, State.branchIf, h]

/-- A `bne` that is not taken changes nothing (R101). -/
theorem exec_bne_not_taken {ra rb : Reg} (rc : Reg) {s : State} (h : s.reg ra = s.reg rb) :
    exec (.bne ra rb rc) s = .next s := by
  simp [exec, execBne, State.branchIf, h]

/-- A step that fetches executes the decoded word with the pc advanced (R15, R80), then ends the cycle. -/
theorem exists_exec_of_step {s t : State} (hf : s.fetches) (h : step s = .next t) :
    ∃ e, exec (decode (s.mem.read s.pc.toNat)) (s.setPc (s.pc + 1)) = .next e ∧
      t = (e.endCycle s.nextAnswer).dropAnswer := by
  rcases step_cases h with ⟨-, hp, -⟩ | ⟨-, e, he, ht⟩
  · exact absurd hf.2 (by simp [hp])
  · rw [State.advancePc_eq] at he
    exact ⟨e, he, ht⟩

/-- Render, poll and the used-up answer leave the pc of the executed instruction (R15). -/
theorem dropAnswer_endCycle_pc (e : State) (k : Option Word) : (e.endCycle k).dropAnswer.pc = e.pc := by
  simp only [State.pc, State.dropAnswer_reg, State.endCycle_reg]

end Sys2Proof.Machine

namespace Sys2Proof.Proofs

open Sys2Proof.Machine

/-- Settles O10: the cycle's end keeps the pc of `exec`, and `exec` leaves the advanced pc where register 2 is not its
destination or its branch is not taken. -/
theorem pcHoldsNextAddress : Obligations.PcHoldsNextAddress := by
  intro s t hf h
  obtain ⟨e, he, rfl⟩ := exists_exec_of_step hf h
  have hadv : (s.setPc (s.pc + 1)).pc = s.pc + 1 := State.setPc_pc s _
  simp only [dropAnswer_endCycle_pc]
  refine ⟨e, he, rfl, fun hd => ?notDest, fun ra rb rc hi hne => ?beq, fun ra rb rc hi heq => ?bne⟩
  case notDest => exact (exec_reg_of_not_destReg he hd).trans hadv
  case beq =>
    rw [hi, exec_beq_not_taken rc hne] at he
    cases he
    exact hadv
  case bne =>
    rw [hi, exec_bne_not_taken rc heq] at he
    cases he
    exact hadv

end Sys2Proof.Proofs
end

section
/-! The codec's numbers (spec/30_encoding.md R51 to R58): the fields of a word, the packed word and the opcode map as
arithmetic. -/

namespace Sys2Proof

theorem opcodeField_toNat (w : Word) : (opcodeField w).toNat = w.toNat / 4096 := by
  have hw := w.isLt
  simp only [opcodeField, BitVec.extractLsb'_toNat, Nat.shiftRight_eq_div_pow]
  omega

theorem aField_toNat (w : Word) : (aField w).toNat = w.toNat / 256 % 16 := by
  simp only [aField, BitVec.extractLsb'_toNat, Nat.shiftRight_eq_div_pow, Nat.reducePow]

theorem bField_toNat (w : Word) : (bField w).toNat = w.toNat / 16 % 16 := by
  simp only [bField, BitVec.extractLsb'_toNat, Nat.shiftRight_eq_div_pow, Nat.reducePow]

theorem cField_toNat (w : Word) : (cField w).toNat = w.toNat % 16 := by
  simp only [cField, BitVec.extractLsb'_toNat, Nat.shiftRight_zero, Nat.reducePow]

theorem immField_toNat (w : Word) : (immField w).toNat = w.toNat % 256 := by
  simp only [immField, BitVec.extractLsb'_toNat, Nat.shiftRight_zero, Nat.reducePow]

/-- The upper part of a concatenation counts in units of the lower part's size. -/
theorem toNat_append_eq_add {m n : Nat} (x : BitVec m) (y : BitVec n) :
    (x ++ y).toNat = x.toNat * 2 ^ n + y.toNat := by
  rw [BitVec.toNat_append, ← Nat.shiftLeft_add_eq_or_of_lt y.isLt, Nat.shiftLeft_eq]

/-- A masked integer is its residue, negative ones by their two's complement low bits (R55). -/
theorem ofInt_toNat_eq_emod (w : Nat) (n : Int) : ((BitVec.ofInt w n).toNat : Int) = n % 2 ^ w := by
  have hpos : (0 : Int) ≤ n % (2 ^ w : Nat) := Int.emod_nonneg n (by simp)
  rw [BitVec.toNat_ofInt, Int.toNat_of_nonneg hpos]
  push_cast
  rfl

/-- The packed R-type word as a number (R51, R52, R55). -/
theorem encodeR_toNat (op a b c : Int) :
    ((encodeR op a b c).toNat : Int) = op % 16 * 4096 + a % 16 * 256 + b % 16 * 16 + c % 16 := by
  simp only [encodeR, toNat_append_eq_add, Nat.cast_add, Nat.cast_mul, ofInt_toNat_eq_emod]
  omega

/-- The packed I-type word as a number (R51, R53, R55). -/
theorem encodeI_toNat (op a imm : Int) :
    ((encodeI op a imm).toNat : Int) = op % 16 * 4096 + a % 16 * 256 + imm % 256 := by
  simp only [encodeI, toNat_append_eq_add, Nat.cast_add, Nat.cast_mul, ofInt_toNat_eq_emod]
  omega

/-- A word is the packing of its four fields (R57). -/
theorem encodeR_fields (w : Word) :
    encodeR (opcodeField w).toNat (aField w).toNat (bField w).toNat (cField w).toNat = w := by
  have hw := w.isLt
  have h := encodeR_toNat (opcodeField w).toNat (aField w).toNat (bField w).toNat (cField w).toNat
  rw [opcodeField_toNat, aField_toNat, bField_toNat, cField_toNat] at h ⊢
  apply BitVec.eq_of_toNat_eq
  omega

/-- A word is the packing of its opcode, its field A and its immediate (R57). -/
theorem encodeI_fields (w : Word) : encodeI (opcodeField w).toNat (aField w).toNat (immField w).toNat = w := by
  have hw := w.isLt
  have h := encodeI_toNat (opcodeField w).toNat (aField w).toNat (immField w).toNat
  rw [opcodeField_toNat, aField_toNat, immField_toNat] at h ⊢
  apply BitVec.eq_of_toNat_eq
  omega

/-- Packing a word's fields with field C left 0 returns the word exactly when its field C is 0 (R59). -/
theorem encodeR_fields_zero_iff (w : Word) :
    encodeR (opcodeField w).toNat (aField w).toNat (bField w).toNat 0 = w ↔ cField w = 0 := by
  constructor
  · intro h
    have hn := encodeR_toNat (opcodeField w).toNat (aField w).toNat (bField w).toNat 0
    rw [h] at hn
    apply BitVec.eq_of_toNat_eq
    rw [cField_toNat, show (0 : Reg).toNat = 0 from rfl]
    omega
  · intro h
    have hw := encodeR_fields w
    rwa [h] at hw

/-- The immediate is masked to its field (R55). -/
theorem encodeI_emod (op a imm : Int) : encodeI op a imm = encodeI op a (imm % 256) := by
  have h₁ := encodeI_toNat op a imm
  have h₂ := encodeI_toNat op a (imm % 256)
  apply BitVec.eq_of_toNat_eq
  omega

/-! The shape a logical instruction is encoded with, by its masked opcode number (R54, R55). -/

theorem Logical.encode_of_nop {l : Logical} (h : l.op % 16 = 0) : l.encode = encodeR 0 0 0 0 := by
  have hop : (BitVec.ofInt 4 l.op).toNat = 0 := by have := ofInt_toNat_eq_emod 4 l.op; omega
  simp only [Logical.encode, hop]

theorem Logical.encode_of_loadStore {l : Logical} (h : l.op % 16 = 1 ∨ l.op % 16 = 2) :
    l.encode = encodeR l.op l.a l.b 0 := by
  have hop : (BitVec.ofInt 4 l.op).toNat = 1 ∨ (BitVec.ofInt 4 l.op).toNat = 2 := by
    have := ofInt_toNat_eq_emod 4 l.op
    omega
  rcases hop with hop | hop <;> simp only [Logical.encode, hop]

theorem Logical.encode_of_immediate {l : Logical} (h : l.op % 16 = 5 ∨ l.op % 16 = 6) :
    l.encode = encodeI l.op l.a l.imm := by
  have hop : (BitVec.ofInt 4 l.op).toNat = 5 ∨ (BitVec.ofInt 4 l.op).toNat = 6 := by
    have := ofInt_toNat_eq_emod 4 l.op
    omega
  rcases hop with hop | hop <;> simp only [Logical.encode, hop]

theorem Logical.encode_of_threeRegs {l : Logical} (h : l.op % 16 = 3 ∨ l.op % 16 = 4 ∨ 7 ≤ l.op % 16) :
    l.encode = encodeR l.op l.a l.b l.c := by
  have hop := ofInt_toNat_eq_emod 4 l.op
  unfold Logical.encode
  split
  case h_6 => rfl
  all_goals omega

/-! The opcode map (R58). -/

/-- Masking a word with 0xF000 keeps its opcode field. -/
theorem opcodeField_eq_of_masked {w v : Word} (h : w &&& 0xF000#16 = v) : opcodeField w = opcodeField v := by
  have hmask : BitVec.extractLsb' 12 4 0xF000#16 = BitVec.allOnes 4 := by decide
  simp only [← h, opcodeField, BitVec.extractLsb'_and, hmask, BitVec.and_allOnes]

/-- The logical instruction that holds every field of a word. -/
def fieldsLogical (w : Word) : Logical :=
  { op := (opcodeField w).toNat, a := (aField w).toNat, b := (bField w).toNat, c := (cField w).toNat
    imm := (immField w).toNat }

/-- Re-encoding a decoded word encodes the word's fields through the shape of its opcode (R57, R59). -/
theorem encode_decode_eq (w : Word) : encode (decode w) = (fieldsLogical w).encode := by
  have hlt := (opcodeField w).isLt
  rw [encode, decode, fieldsLogical]
  interval_cases (opcodeField w).toNat <;> rfl

/-- The opcode field as the integer the encoder masks. -/
theorem fieldsLogical_op_emod (w : Word) : (fieldsLogical w).op % 16 = (opcodeField w).toNat :=
  Int.emod_eq_of_lt (Int.natCast_nonneg _) (Int.ofNat_lt.mpr (opcodeField w).isLt)

/-- Re-encoding through the mnemonic's shape returns the canonical words only (R57, R59). -/
theorem encode_decode_eq_self_iff (w : Word) :
    encode (decode w) = w ↔
      ((opcodeField w = 0 → w = 0) ∧ (opcodeField w = 1 ∨ opcodeField w = 2 → cField w = 0)) := by
  have hop := fieldsLogical_op_emod w
  have h0 : opcodeField w = 0 ↔ (opcodeField w).toNat = 0 := BitVec.toNat_inj.symm
  have h1 : opcodeField w = 1 ↔ (opcodeField w).toNat = 1 := BitVec.toNat_inj.symm
  have h2 : opcodeField w = 2 ↔ (opcodeField w).toNat = 2 := BitVec.toNat_inj.symm
  have hshape : (opcodeField w).toNat = 0 ∨ ((opcodeField w).toNat = 1 ∨ (opcodeField w).toNat = 2) ∨
      ((opcodeField w).toNat = 5 ∨ (opcodeField w).toNat = 6) ∨
      ((opcodeField w).toNat = 3 ∨ (opcodeField w).toNat = 4 ∨ 7 ≤ (opcodeField w).toNat) := by omega
  rw [encode_decode_eq, h0, h1, h2]
  rcases hshape with h | h | h | h
  case inl =>
    rw [Logical.encode_of_nop (by omega), show encodeR 0 0 0 0 = 0 from rfl]
    exact ⟨fun hw => ⟨fun _ => hw.symm, fun h12 => by omega⟩, fun hc => (hc.1 h).symm⟩
  case inr.inl =>
    rw [Logical.encode_of_loadStore (by omega)]
    exact (encodeR_fields_zero_iff w).trans ⟨fun hc => ⟨fun hn => by omega, fun _ => hc⟩, fun hc => hc.2 h⟩
  case inr.inr.inl =>
    rw [Logical.encode_of_immediate (by omega)]
    exact iff_of_true (encodeI_fields w) ⟨fun hn => by omega, fun h12 => by omega⟩
  case inr.inr.inr =>
    rw [Logical.encode_of_threeRegs (by omega)]
    exact iff_of_true (encodeR_fields w) ⟨fun hn => by omega, fun h12 => by omega⟩

end Sys2Proof
end

section
/-! Proofs about the codec (spec/30_encoding.md sections 1 to 6). -/

namespace Sys2Proof.Proofs

/-- Settles O2: the packed words as numbers, and one lemma per shape. -/
theorem encodeMasksFieldValues : Obligations.EncodeMasksFieldValues :=
  ⟨encodeR_toNat, encodeI_toNat,
    fun _ => ⟨Logical.encode_of_nop, Logical.encode_of_loadStore, Logical.encode_of_immediate,
      Logical.encode_of_threeRegs⟩,
    by decide⟩

/-- Settles O3: the immediate is fields B and C read as one number. -/
theorem decodeReturnsAllFields : Obligations.DecodeReturnsAllFields := by
  intro w
  simp only [decodeFields, opcodeField_toNat, aField_toNat, bField_toNat, cField_toNat, immField_toNat, true_and]
  omega

/-- Settles O4: the packed word and the fields as numbers; a decoded word is re-encoded through its opcode's shape. -/
theorem codecRoundTrip : Obligations.CodecRoundTrip := by
  refine ⟨fun op a b c => ?rType, fun op a imm => ?iType, encodeR_fields, fun w => ?shape⟩
  case rType =>
    have h := encodeR_toNat op a b c
    simp only [decodeFields, opcodeField_toNat, aField_toNat, bField_toNat, cField_toNat]
    omega
  case iType =>
    have h := encodeI_toNat op a imm
    simp only [decodeFields, opcodeField_toNat, aField_toNat, immField_toNat]
    omega
  case shape => exact encode_decode_eq_self_iff w

/-- Settles O6: the masked word has the opcode field of the word, and the decoder reads that field. -/
theorem opcodeSelectsInstruction : Obligations.OpcodeSelectsInstruction := by
  intro w
  refine ⟨fun h => ?_, fun h => ?_, fun h => ?_, fun h => ?_, fun h => ?_, fun h => ?_, fun h => ?_, fun h => ?_,
    fun h => ?_, fun h => ?_, fun h => ?_, fun h => ?_, fun h => ?_, fun h => ?_, fun h => ?_, fun h => ?_⟩ <;>
    (rw [decode, opcodeField_eq_of_masked h]; rfl)

end Sys2Proof.Proofs
end

section
/-! What the assembler answers (spec/30_encoding.md section 7): operands and their count, the symbol table, the emitted
words, line by line. -/

namespace Sys2Proof.Machine

/-- Operands that must all be registers fail only as unknown registers (R70). -/
theorem registersOf_ne_operandCountMismatch (operands : List Token) :
    registersOf operands ≠ .error .operandCountMismatch := by
  induction operands with
  | nil => simp [registersOf]
  | cons t rest ih =>
    unfold registersOf
    split
    case h_1 => simp
    case h_2 r e hr he => rwa [he] at ih
    case h_3 => simp

theorem resolveImmediate_ne_operandCountMismatch (op : Nat) (target imm : Token) :
    resolveImmediate op target imm ≠ .error .operandCountMismatch := by
  unfold resolveImmediate
  split
  case h_3 => split <;> simp
  all_goals simp

theorem resolveRegisters_ne_operandCountMismatch (op : Nat) (operands : List Token) :
    resolveRegisters op operands ≠ .error .operandCountMismatch := by
  have hregs := registersOf_ne_operandCountMismatch operands.dropLast
  unfold resolveRegisters
  split
  case h_1 => simp
  case h_2 =>
    split
    case h_1 e he => simpa [he] using hregs
    case h_2 => split <;> simp

/-- The count is wrong exactly when it is not the mnemonic's arity: no other check answers this error (R65, R70). -/
theorem resolveInstr_operandCountMismatch_iff {n : Token} {k : Nat}
    (h : (indexIn mnemonicNames n).map arity = some k) (operands : List Token) :
    resolveInstr n operands = .error .operandCountMismatch ↔ operands.length ≠ k := by
  obtain ⟨op, hop, rfl⟩ := Option.map_eq_some_iff.mp h
  simp only [resolveInstr, hop]
  split
  case isTrue hne => simp [hne]
  case isFalse heq =>
    refine iff_of_false ?_ heq
    split
    · exact resolveImmediate_ne_operandCountMismatch op _ _
    · exact resolveRegisters_ne_operandCountMismatch op operands

/-- A name found in a list of names stands at one of its places. -/
theorem indexIn_lt_length {names : List Token} {t : Token} {r : Nat} (h : indexIn names t = some r) :
    r < names.length :=
  (List.findIdx?_eq_some_iff_findIdx_eq.mp h).1

theorem fitsImm_iff (n : Int) : fitsImm n = true ↔ 0 ≤ n ∧ n < 256 := by
  rw [fitsImm, Bool.and_eq_true, decide_eq_true_eq, decide_eq_true_eq]

/-- Every 8-bit value fits the immediate field (R57). -/
theorem fitsImm_toNat (v : Imm8) : fitsImm v.toNat = true :=
  (fitsImm_iff _).mpr ⟨Int.natCast_nonneg _, Int.ofNat_lt.mpr v.isLt⟩

/-- `lui` and `ori` on a register and a decimal immediate: the range check of R71. -/
theorem resolveImmediate_decimal (op : Nat) {target imm : Token} {r : Nat} {k : Int}
    (hr : indexIn registerNames target = some r) (hk : decimal imm = some k) :
    resolveImmediate op target imm =
      if 0 ≤ k ∧ k < 256 then .ok (.plain { op := op, a := (r : Nat), imm := k }) else .error .fieldOverflow := by
  simp only [resolveImmediate, hr, hk, fitsImm_iff]

theorem resolveInstr_immediate {n : Token} {op : Nat} (hn : indexIn mnemonicNames n = some op) (h : op = 5 ∨ op = 6)
    (target imm : Token) : resolveInstr n [target, imm] = resolveImmediate op target imm := by
  rcases h with rfl | rfl <;> simp [resolveInstr, hn, arity, takesImmediate]

theorem labelAddress_cons_same (table : List (Token × Nat)) (name : Token) (a : Nat) :
    labelAddress ((name, a) :: table) name = some a := by
  simp [labelAddress]

theorem labelAddress_cons_ne {table : List (Token × Nat)} {m name : Token} (a : Nat) (h : m ≠ name) :
    labelAddress ((m, a) :: table) name = labelAddress table name := by
  simp [labelAddress, h]

/-- The symbol table of a first line and the lines after it: theirs and the first one's label, new to it (R66, R70). -/
theorem symbolTable_cons_ok {address : Nat} {l : AsmLine} {rest : List AsmLine} {table : List (Token × Nat)}
    (h : symbolTable address (l :: rest) = .ok table) :
    ∃ later, symbolTable (address + l.size) rest = .ok later ∧
      (l.label = none ∧ table = later ∨
        ∃ name, l.label = some name ∧ labelAddress later name = none ∧ table = (name, address) :: later) := by
  unfold symbolTable at h
  split at h
  case h_1 => cases h
  case h_2 later hlater =>
    refine ⟨later, hlater, ?_⟩
    split at h
    case h_1 hl => exact .inl ⟨hl, by cases h; rfl⟩
    case h_2 name hl =>
      split at h
      case isTrue => cases h
      case isFalse hnew => exact .inr ⟨name, hl, by simpa using hnew, by cases h; rfl⟩

/-- A label keeps its address when the line before it is added: that line's own label is another one. -/
theorem labelAddress_of_later {address : Nat} {l : AsmLine} {table later : List (Token × Nat)} {name : Token} {a : Nat}
    (htable : l.label = none ∧ table = later ∨
      ∃ m, l.label = some m ∧ labelAddress later m = none ∧ table = (m, address) :: later)
    (ha : labelAddress later name = some a) : labelAddress table name = some a := by
  rcases htable with ⟨-, rfl⟩ | ⟨m, -, hnew, rfl⟩
  · exact ha
  · have hne : m ≠ name := by
      rintro rfl
      simp [hnew] at ha
    rwa [labelAddress_cons_ne address hne]

/-- A label's address is the start address plus the words of the lines before it (R68), by induction on the lines. -/
theorem labelAddress_symbolTable {address : Nat} {lines : List AsmLine} {table : List (Token × Nat)} {k : Nat}
    {line : AsmLine} {name : Token} (h : symbolTable address lines = .ok table) (hk : lines[k]? = some line)
    (hname : line.label = some name) :
    labelAddress table name = some (address + ((lines.take k).map AsmLine.size).sum) := by
  induction lines generalizing address table k with
  | nil => simp at hk
  | cons l rest ih =>
    obtain ⟨later, hlater, htable⟩ := symbolTable_cons_ok h
    cases k with
    | zero =>
      obtain rfl : l = line := by simpa using hk
      rcases htable with ⟨hnone, -⟩ | ⟨m, hm, -, rfl⟩
      · simp [hnone] at hname
      · obtain rfl : m = name := by simpa [hm] using hname
        simp [labelAddress_cons_same]
    | succ j =>
      have hj := labelAddress_of_later htable (ih hlater (by simpa using hk))
      simpa [Nat.add_assoc] using hj

/-- A line emits as many words as its size says (R67 to R69). -/
theorem emitLine_length {table : List (Token × Nat)} {l : AsmLine} {ws : List Word} (h : emitLine table l = .ok ws) :
    ws.length = l.size := by
  unfold emitLine at h
  split at h
  case h_1 hi => cases h; simp [AsmLine.size, hi]
  case h_2 i hi => cases h; simp [AsmLine.size, hi]
  case h_3 op regs name hi =>
    split at h
    · cases h
    · cases h; simp [AsmLine.size, hi, materialise]

/-- The image of a first line and the lines after it (R69). -/
theorem emitLines_cons_ok_iff {table : List (Token × Nat)} {l : AsmLine} {rest : List AsmLine} {image : List Word} :
    emitLines table (l :: rest) = .ok image ↔
      ∃ ws more, emitLine table l = .ok ws ∧ emitLines table rest = .ok more ∧ image = ws ++ more := by
  simp only [emitLines]
  cases emitLine table l <;> cases emitLines table rest <;> simp [eq_comm]

theorem emitLines_length {table : List (Token × Nat)} {lines : List AsmLine} {image : List Word}
    (h : emitLines table lines = .ok image) : image.length = (lines.map AsmLine.size).sum := by
  induction lines generalizing image with
  | nil => cases h; rfl
  | cons l rest ih =>
    obtain ⟨ws, more, hws, hmore, rfl⟩ := emitLines_cons_ok_iff.mp h
    simp [emitLine_length hws, ih hmore]

/-- The first lines of a source emit the first words of its image (R69). -/
theorem emitLines_take {table : List (Token × Nat)} {lines : List AsmLine} {image : List Word}
    (h : emitLines table lines = .ok image) (k : Nat) :
    ∃ before, emitLines table (lines.take k) = .ok before ∧ before <+: image := by
  induction lines generalizing image k with
  | nil => exact ⟨image, by simpa using h, List.prefix_rfl⟩
  | cons l rest ih =>
    cases k with
    | zero => exact ⟨[], rfl, List.nil_prefix⟩
    | succ j =>
      obtain ⟨ws, more, hws, hmore, rfl⟩ := emitLines_cons_ok_iff.mp h
      obtain ⟨before, hbefore, hpre⟩ := ih hmore j
      exact ⟨ws ++ before, emitLines_cons_ok_iff.mpr ⟨ws, before, hws, hbefore, rfl⟩,
        (List.prefix_append_right_inj ws).mpr hpre⟩

end Sys2Proof.Machine

namespace Sys2Proof.Proofs

open Sys2Proof.Machine

/-- Settles O49: each mnemonic's arity, and the error is answered for the count alone. -/
theorem arityIsChecked : Obligations.ArityIsChecked := by
  have hnone : (indexIn mnemonicNames "nop".toList).map arity = some 0 := by decide
  have htwo : ∀ n ∈ ["lw", "sw", "lui", "ori"], (indexIn mnemonicNames n.toList).map arity = some 2 := by decide
  have hthree : ∀ n ∈ ["beq", "bne", "sgt", "seq", "nand", "sll", "srl", "add", "sub", "mul", "div"],
      (indexIn mnemonicNames n.toList).map arity = some 3 := by decide
  exact ⟨resolveInstr_operandCountMismatch_iff hnone,
    fun n hn => resolveInstr_operandCountMismatch_iff (htwo n hn),
    fun n hn => resolveInstr_operandCountMismatch_iff (hthree n hn)⟩

/-- Settles O50: the assembler's range check, the codec's mask, and the values that always fit. -/
theorem fieldOverflowIsHardError : Obligations.FieldOverflowIsHardError := by
  refine ⟨fun n target imm op r k hn hr hk => ?immediate, encodeI_emod, fun t r h => indexIn_lt_length h,
    fun addr => ⟨fitsImm_toNat _, fitsImm_toNat _⟩⟩
  case immediate =>
    obtain ⟨hop, himm⟩ : indexIn mnemonicNames n = some op ∧ (op = 5 ∨ op = 6) := by
      rcases hn with ⟨rfl, rfl⟩ | ⟨rfl, rfl⟩ <;> decide
    rw [resolveInstr_immediate hop himm, resolveImmediate_decimal op hr hk]
    exact ⟨fun hout => if_neg (by omega), fun hlo hhi => if_pos (by omega)⟩

/-- Settles O52: the words a line emits, and inductions over the lines for the symbol table and for the image. -/
theorem labelAddressIsTrueOffset : Obligations.LabelAddressIsTrueOffset := by
  refine ⟨fun l => ?size, fun address lines table k line name h hk hname => labelAddress_symbolTable h hk hname,
    fun lines table image k h _ => ?offset⟩
  case size =>
    refine ⟨fun h => ?_, fun i h => ?_, fun op regs name h => ?_⟩ <;> simp only [AsmLine.size, h]
  case offset =>
    obtain ⟨before, hbefore, hpre⟩ := emitLines_take h k
    exact ⟨before, hbefore, hpre, emitLines_length hbefore⟩

end Sys2Proof.Proofs
end

section
/-! Proofs about `lw` and `sw` (spec/41_load_store.md R90, R91): the frame of a register write, the device side of a
store, and the two instructions' words. -/

namespace Sys2Proof

/-- The R-type word of an opcode number and three registers (R51, R52). -/
theorem encodeR_regs_toNat {op : Nat} (hop : op < 16) (a b c : Reg) :
    (encodeR op a.toNat b.toNat c.toNat).toNat = op * 4096 + a.toNat * 256 + b.toNat * 16 + c.toNat := by
  have h := encodeR_toNat op a.toNat b.toNat c.toNat
  have ha := a.isLt
  have hb := b.isLt
  have hc := c.isLt
  omega

theorem encode_lw (rd ra : Reg) : encode (.lw rd ra) = encodeR 1 rd.toNat ra.toNat 0 := rfl

theorem encode_sw (rs ra : Reg) : encode (.sw rs ra) = encodeR 2 rs.toNat ra.toNat 0 := rfl

theorem decode_of_opcode_one {w : Word} (h : w.toNat / 4096 = 1) : decode w = .lw (aField w) (bField w) := by
  simp only [decode, opcodeField_toNat, h]

theorem decode_of_opcode_two {w : Word} (h : w.toNat / 4096 = 2) : decode w = .sw (aField w) (bField w) := by
  simp only [decode, opcodeField_toNat, h]

end Sys2Proof

namespace Sys2Proof.Machine

/-- The frame of a register write (R12, R13). -/
theorem State.setReg_writesOnlyReg (s : State) (r : Reg) (v : Word) : WritesOnlyReg r s (s.setReg r v) :=
  ⟨fun _ hq => State.setReg_reg_ne s v hq, fun _ => rfl, ⟨rfl, rfl, rfl⟩, ⟨rfl, rfl, rfl⟩, rfl⟩

theorem exec_lw (rd ra : Reg) (s : State) : exec (.lw rd ra) s = .next (s.setReg rd (s.load (s.reg ra))) := rfl

theorem exec_sw (rs ra : Reg) (s : State) : exec (.sw rs ra) s = .next (s.memWrite (s.reg ra) (s.reg rs)) := rfl

/-- The run's constants and the host's answers are no part of a store (R91). -/
theorem State.memWrite_sameRun (s : State) (a v : Word) : SameRun s (s.memWrite a v) :=
  ⟨State.memWrite_cfg s a v, State.memWrite_progLen s a v, State.memWrite_kbdAnswers s a v⟩

/-- The device side of a store at or above VIDEO_BASE (R171). -/
theorem State.memWrite_devices_video {s : State} {a v : Word} (h : s.cfg.videoBase.toNat ≤ a.toNat) :
    (s.memWrite a v).displayDirty = true ∧ (s.memWrite a v).events = s.events ++ [.videoWrite a v] := by
  rw [State.memWrite_video ((inVideo_iff s.cfg a).mpr h)]
  exact ⟨rfl, rfl⟩

/-- A store below VIDEO_BASE has no device side (R91, R171). -/
theorem State.memWrite_devices_plain {s : State} {a v : Word} (h : a.toNat < s.cfg.videoBase.toNat) :
    (s.memWrite a v).displayDirty = s.displayDirty ∧ (s.memWrite a v).events = s.events := by
  rw [State.memWrite_plain ((inVideo_eq_false_iff s.cfg a).mpr h)]
  exact ⟨rfl, rfl⟩

end Sys2Proof.Machine

namespace Sys2Proof.Proofs

open Sys2Proof.Machine

/-- Settles O12: `lw` is one register write of the loaded word. -/
theorem lwLoadsWord : Obligations.LwLoadsWord := by
  refine ⟨fun rd ra s => ⟨_, exec_lw rd ra s, ?loaded, State.setReg_writesOnlyReg s rd _⟩, fun rd ra => ?encoding,
    fun w => decode_of_opcode_one⟩
  case loaded => exact State.setReg_reg_self s rd _
  case encoding => simpa [encode_lw] using encodeR_regs_toNat (op := 1) (by decide) rd ra 0

/-- Settles O13: `sw` is one memory write with its device side, which the address against VIDEO_BASE decides. -/
theorem swStoresWord : Obligations.SwStoresWord := by
  refine ⟨fun rs ra s => ⟨_, exec_sw rs ra s, rfl, ?stored, fun a ha => ?others, State.memWrite_reg s _ _,
    State.memWrite_sameRun s _ _, State.memWrite_status s _ _, State.memWrite_keyboardHasChar s _ _,
    State.memWrite_devices_video, State.memWrite_devices_plain, State.renderIfDirty_displayDirty _⟩,
    fun rs ra => ?encoding, fun w => decode_of_opcode_two⟩
  case stored =>
    rw [State.memWrite_mem]
    exact Memory.read_write_self _ _ _
  case others =>
    rw [State.memWrite_mem]
    exact Memory.read_write_ne _ _ ha
  case encoding => simpa [encode_sw] using encodeR_regs_toNat (op := 2) (by decide) rs ra 0

end Sys2Proof.Proofs
end

section
/-! Proofs about `beq` and `bne` (spec/42_branch.md R100 to R102): what a branch leaves in the pc and in the rest of the
state, and the whole step of a taken one. -/

namespace Sys2Proof

theorem encode_beq (ra rb rc : Reg) : encode (.beq ra rb rc) = encodeR 3 ra.toNat rb.toNat rc.toNat := rfl

theorem encode_bne (ra rb rc : Reg) : encode (.bne ra rb rc) = encodeR 4 ra.toNat rb.toNat rc.toNat := rfl

end Sys2Proof

namespace Sys2Proof.Machine

theorem toNat_add_one_add (a v : Word) : (a + 1 + v).toNat = (a.toNat + 1 + v.toNat) % 65536 := by
  rw [BitVec.toNat_add, BitVec.toNat_add, show (1 : Word).toNat = 1 from rfl]
  omega

/-- The pc advance and the offset read as signed: the same target (R102). -/
theorem toNat_add_one_add_eq_emod_toInt (a v : Word) :
    ((a + 1 + v).toNat : Int) = ((a.toNat : Int) + 1 + v.toInt) % 65536 := by
  rw [BitVec.toInt_eq_toNat_cond, BitVec.toNat_add, BitVec.toNat_add, show (1 : Word).toNat = 1 from rfl]
  split <;> omega

theorem State.branchTarget_eq (s : State) (rc : Reg) : s.branchTarget rc = s.pc + s.reg rc := wrap16_add _ _

theorem State.branchIf_taken (s : State) {taken : Bool} (rc : Reg) (h : taken = true) :
    s.branchIf taken rc = s.setPc (s.pc + s.reg rc) := by
  rw [State.branchIf, if_pos h, State.branchTarget_eq]

theorem State.branchIf_pc_toNat_of_taken (s : State) {taken : Bool} (rc : Reg) (h : taken = true) :
    (s.branchIf taken rc).pc.toNat = (s.pc.toNat + (s.reg rc).toNat) % 65536 := by
  rw [State.branchIf_taken s rc h, State.setPc_pc, BitVec.toNat_add]

theorem State.branchIf_pc_of_not_taken (s : State) {taken : Bool} (rc : Reg) (h : taken = false) :
    (s.branchIf taken rc).pc = s.pc := by
  subst h
  rfl

/-- The frame of a branch, taken or not (R100, R101). -/
theorem State.branchIf_writesOnlyReg (s : State) (taken : Bool) (rc : Reg) :
    WritesOnlyReg pcReg s (s.branchIf taken rc) := by
  cases taken with
  | true => exact State.setReg_writesOnlyReg s pcReg _
  | false => exact ⟨fun _ _ => rfl, fun _ => rfl, ⟨rfl, rfl, rfl⟩, ⟨rfl, rfl, rfl⟩, rfl⟩

theorem exec_beq (ra rb rc : Reg) (s : State) :
    exec (.beq ra rb rc) s = .next (s.branchIf (s.reg ra == s.reg rb) rc) := rfl

theorem exec_bne (ra rb rc : Reg) (s : State) :
    exec (.bne ra rb rc) s = .next (s.branchIf (s.reg ra != s.reg rb) rc) := rfl

/-- Both branches, when taken, only add the offset register to the pc (R100, R101). -/
theorem exec_taken_branch {i : Instr} {s : State} {ra rb rc : Reg}
    (h : i = .beq ra rb rc ∧ s.reg ra = s.reg rb ∨ i = .bne ra rb rc ∧ s.reg ra ≠ s.reg rb) :
    exec i s = .next (s.setPc (s.pc + s.reg rc)) := by
  rcases h with ⟨rfl, heq⟩ | ⟨rfl, hne⟩
  · rw [exec_beq, State.branchIf_taken s rc (beq_iff_eq.mpr heq)]
  · rw [exec_bne, State.branchIf_taken s rc (bne_iff_ne.mpr hne)]

/-- A step that fetches is the decoded word executed with the pc advanced, then the cycle's end (R15, R80). -/
theorem step_of_exec {s e : State} (hf : s.fetches)
    (he : exec (decode (s.mem.read s.pc.toNat)) (s.setPc (s.pc + 1)) = .next e) :
    step s = .next (e.endCycle s.nextAnswer).dropAnswer := by
  rw [← State.advancePc_eq] at he
  exact step_fetches hf he

end Sys2Proof.Machine

namespace Sys2Proof.Proofs

open Sys2Proof.Machine

/-- Settles O14: `beq` is a branch on equality of its two registers. -/
theorem beqAddsOffsetWhenEqual : Obligations.BeqAddsOffsetWhenEqual := by
  refine ⟨fun ra rb rc s => ⟨_, exec_beq ra rb rc s, fun h => ?taken, fun h => ?notTaken,
    State.branchIf_writesOnlyReg s _ rc⟩, fun ra rb rc => ?encoding⟩
  case taken => exact State.branchIf_pc_toNat_of_taken s rc (beq_iff_eq.mpr h)
  case notTaken => exact State.branchIf_pc_of_not_taken s rc (beq_eq_false_iff_ne.mpr h)
  case encoding => simpa [encode_beq] using encodeR_regs_toNat (op := 3) (by decide) ra rb rc

/-- Settles O15: `bne` is a branch on difference of its two registers. -/
theorem bneAddsOffsetWhenUnequal : Obligations.BneAddsOffsetWhenUnequal := by
  refine ⟨fun ra rb rc s => ⟨_, exec_bne ra rb rc s, fun h => ?taken, fun h => ?notTaken,
    State.branchIf_writesOnlyReg s _ rc⟩, fun ra rb rc => ?encoding⟩
  case taken => exact State.branchIf_pc_toNat_of_taken s rc (bne_iff_ne.mpr h)
  case notTaken => exact State.branchIf_pc_of_not_taken s rc (bne_eq_false_iff_eq.mpr h)
  case encoding => simpa [encode_bne] using encodeR_regs_toNat (op := 4) (by decide) ra rb rc

/-- Settles O16: the cycle's end keeps the pc, the status and the program region of the executed branch, and the next
cycle's halting check reads them. -/
theorem takenBranchTarget : Obligations.TakenBranchTarget := by
  intro s ra rb rc hf htaken
  have hstep := step_of_exec hf (exec_taken_branch htaken)
  rw [State.setPc_pc] at hstep
  have hpc (e : State) := dropAnswer_endCycle_pc e s.nextAnswer
  refine ⟨_, hstep, ?running, ?unsigned, ?signed, fun hout => ?halts⟩
  case running => simpa using hf.1
  case unsigned => rw [hpc, State.setPc_pc, toNat_add_one_add]
  case signed => rw [hpc, State.setPc_pc, toNat_add_one_add_eq_emod_toInt]
  case halts =>
    refine ⟨_, step_outside (by simpa using hf.1) ?_, State.halt_status _ _, State.halt_pc _ _⟩
    rw [State.inProgram_eq_false_iff]
    simpa using hout

end Sys2Proof.Proofs
end

section
/-! Proofs about `lui` (spec/43_immediate.md R110): the immediate's place in the word it writes, and its encoding. -/

namespace Sys2Proof

/-- The I-type word of an opcode number, a register and an immediate (R51, R53). -/
theorem encodeI_reg_imm_toNat {op : Nat} (hop : op < 16) (a : Reg) (imm : Imm8) :
    (encodeI op a.toNat imm.toNat).toNat = op * 4096 + a.toNat * 256 + imm.toNat := by
  have h := encodeI_toNat op a.toNat imm.toNat
  have ha := a.isLt
  have himm := imm.isLt
  omega

theorem encode_lui (rd : Reg) (imm : Imm8) : encode (.lui rd imm) = encodeI 5 rd.toNat imm.toNat := rfl

end Sys2Proof

namespace Sys2Proof.Machine

/-- The high byte counts in units of 256, and no bit of the immediate is shifted out (R110). -/
theorem immHigh_toNat (imm : Imm8) : (immHigh imm).toNat = imm.toNat * 256 := by
  have himm := imm.isLt
  rw [immHigh, zext8, BitVec.toNat_shiftLeft, BitVec.toNat_setWidth, Nat.shiftLeft_eq]
  omega

theorem exec_lui (rd : Reg) (imm : Imm8) (s : State) : exec (.lui rd imm) s = .next (s.setReg rd (immHigh imm)) := rfl

end Sys2Proof.Machine

namespace Sys2Proof.Proofs

open Sys2Proof.Machine

/-- Settles O17: `lui` is one register write of the immediate's high-byte placement. -/
theorem luiLoadsUpperByte : Obligations.LuiLoadsUpperByte := by
  refine ⟨fun rd imm s => ⟨_, exec_lui rd imm s, ?loaded, State.setReg_writesOnlyReg s rd _⟩, fun rd imm => ?encoding⟩
  case loaded => rw [State.setReg_reg_self, immHigh_toNat]
  case encoding => simpa [encode_lui] using encodeI_reg_imm_toNat (op := 5) (by decide) rd imm

end Sys2Proof.Proofs
end

section
/-! Proofs about what can stop or divert the machine (spec/60_exceptions.md R160 to R163): the one exception of the
instruction set, and a step under other keyboard answers. -/

namespace Sys2Proof.Machine

/-- The address of the `div` as a word (R160). -/
theorem State.raiseDivideByZero_status_eq (s : State) :
    s.raiseDivideByZero.status = .halted (.divideByZero (s.pc - 1)) := by
  rw [State.raiseDivideByZero_status, wrap16_pred]

theorem exec_div_of_zero (rd rb : Reg) {rc : Reg} {s : State} (h : s.reg rc = 0#16) :
    exec (.div rd rb rc) s = .next s.raiseDivideByZero := if_pos h

theorem exec_div_of_ne_zero (rd rb : Reg) {rc : Reg} {s : State} (h : s.reg rc ≠ 0#16) :
    exec (.div rd rb rc) s = .next (s.withResult aluDiv rd rb rc) := if_neg h

/-- An instruction keeps the status or is a `div` that takes the exception (R160). -/
theorem exec_status_or_divideByZero (i : Instr) (s : State) :
    ∃ t, exec i s = .next t ∧
      (t.status = s.status ∨ ∃ rd rb rc, i = .div rd rb rc ∧ s.reg rc = 0#16 ∧ t = s.raiseDivideByZero) := by
  rcases exec_cases i s with h | ⟨r, v, -, h⟩ | ⟨rs, ra, -, h⟩ | ⟨rd, rb, rc, hi, hz, h⟩
  · exact ⟨_, h, .inl rfl⟩
  · exact ⟨_, h, .inl (State.setReg_status s r v)⟩
  · exact ⟨_, h, .inl (State.memWrite_status s _ _)⟩
  · exact ⟨_, h, .inr ⟨rd, rb, rc, hi, hz, rfl⟩⟩

/-- No instruction changes the configuration (R3). -/
theorem exec_cfg {i : Instr} {s e : State} (h : exec i s = .next e) : e.cfg = s.cfg := by
  rcases exec_cases i s with he | ⟨r, v, -, he⟩ | ⟨rs, ra, -, he⟩ | ⟨rd, rb, rc, -, -, he⟩ <;>
    obtain rfl := Host.Outcome.next.inj (he.symm.trans h)
  case inl => rfl
  case inr.inl => exact State.setReg_cfg s r v
  case inr.inr.inl => exact State.memWrite_cfg s _ _
  case inr.inr.inr => exact State.raiseDivideByZero_cfg s

/-! The host's coming answers ride along: no operation before the poll reads them. -/

theorem State.memWrite_withAnswers (s : State) (ks : List (Option Word)) (a v : Word) :
    (s.withAnswers ks).memWrite a v = (s.memWrite a v).withAnswers ks := by
  cases h : inVideo s.cfg a with
  | true => rw [State.memWrite_video h, State.memWrite_video (s := s.withAnswers ks) h]; rfl
  | false => rw [State.memWrite_plain h, State.memWrite_plain (s := s.withAnswers ks) h]; rfl

theorem State.branchIf_withAnswers (s : State) (ks : List (Option Word)) (taken : Bool) (rc : Reg) :
    (s.withAnswers ks).branchIf taken rc = (s.branchIf taken rc).withAnswers ks := by
  cases taken <;> rfl

theorem State.renderIfDirty_withAnswers (s : State) (ks : List (Option Word)) :
    (s.withAnswers ks).renderIfDirty = s.renderIfDirty.withAnswers ks := by
  cases h : s.displayDirty with
  | true => rw [State.renderIfDirty_dirty h, State.renderIfDirty_dirty (s := s.withAnswers ks) h]; rfl
  | false => rw [State.renderIfDirty_clean h, State.renderIfDirty_clean (s := s.withAnswers ks) h]

theorem State.pollKeyboard_withAnswers (s : State) (ks : List (Option Word)) (k : Option Word) :
    (s.withAnswers ks).pollKeyboard k = (s.pollKeyboard k).withAnswers ks := by
  cases k <;> rfl

theorem State.endCycle_withAnswers (s : State) (ks : List (Option Word)) (k : Option Word) :
    (s.withAnswers ks).endCycle k = (s.endCycle k).withAnswers ks := by
  cases h : s.status with
  | running =>
    rw [State.endCycle_running k h, State.endCycle_running (s := s.withAnswers ks) k h,
      State.renderIfDirty_withAnswers, State.pollKeyboard_withAnswers]
  | halted why => rw [State.endCycle_halted k h, State.endCycle_halted (s := s.withAnswers ks) k h]

/-- An instruction does the same whatever the host will answer (R163). -/
theorem exec_withAnswers {i : Instr} {s e : State} (ks : List (Option Word)) (h : exec i s = .next e) :
    exec i (s.withAnswers ks) = .next (e.withAnswers ks) := by
  cases i with
  | sw rs ra => cases h; exact congrArg _ (State.memWrite_withAnswers s ks _ _)
  | beq ra rb rc => cases h; exact congrArg _ (State.branchIf_withAnswers s ks _ rc)
  | bne ra rb rc => cases h; exact congrArg _ (State.branchIf_withAnswers s ks _ rc)
  | div rd rb rc =>
    by_cases hz : s.reg rc = 0#16
    · rw [exec_div_of_zero rd rb hz] at h
      cases h
      exact exec_div_of_zero rd rb hz
    · rw [exec_div_of_ne_zero rd rb hz] at h
      cases h
      exact exec_div_of_ne_zero rd rb hz
  | _ => cases h; rfl

/-- Two states agree on the registers, the status, the display and the constants of the run, and on every word of memory
but the one at `k`. -/
def AgreeButWord (k : Nat) (s t : State) : Prop :=
  SameRegs s t ∧ s.status = t.status ∧ s.events = t.events ∧ s.displayDirty = t.displayDirty ∧
  s.cfg = t.cfg ∧ s.progLen = t.progLen ∧ ∀ a, a ≠ k → s.mem.read a = t.mem.read a

theorem AgreeButWord.withAnswers (k : Nat) (s : State) (ks : List (Option Word)) :
    AgreeButWord k s (s.withAnswers ks) :=
  ⟨fun _ => rfl, rfl, rfl, rfl, rfl, rfl, fun _ _ => rfl⟩

theorem AgreeButWord.trans {k : Nat} {s t u : State} (hst : AgreeButWord k s t) (htu : AgreeButWord k t u) :
    AgreeButWord k s u := by
  obtain ⟨hr, hs, he, hd, hc, hp, hm⟩ := hst
  obtain ⟨hr', hs', he', hd', hc', hp', hm'⟩ := htu
  exact ⟨fun q => (hr' q).trans (hr q), hs.trans hs', he.trans he', hd.trans hd', hc.trans hc', hp.trans hp',
    fun a ha => (hm a ha).trans (hm' a ha)⟩

theorem AgreeButWord.symm {k : Nat} {s t : State} (hst : AgreeButWord k s t) : AgreeButWord k t s := by
  obtain ⟨hr, hs, he, hd, hc, hp, hm⟩ := hst
  exact ⟨fun q => (hr q).symm, hs.symm, he.symm, hd.symm, hc.symm, hp.symm, fun a ha => (hm a ha).symm⟩

/-- The poll reaches nothing but the flag and the keyboard word (R163, R175). -/
theorem AgreeButWord.pollKeyboard (s : State) (k : Option Word) :
    AgreeButWord (kbdAddr s.cfg).toNat s (s.pollKeyboard k) :=
  ⟨s.pollKeyboard_reg k, (s.pollKeyboard_status k).symm, (s.pollKeyboard_events k).symm,
    (s.pollKeyboard_displayDirty k).symm, (s.pollKeyboard_cfg k).symm, (s.pollKeyboard_progLen k).symm,
    fun a ha => by rw [State.pollKeyboard_read, if_neg ha]⟩

/-- Whatever is polled, a cycle ends in states that agree outside the keyboard word (R163). -/
theorem AgreeButWord.endCycle (s : State) (k₁ k₂ : Option Word) :
    AgreeButWord (kbdAddr s.cfg).toNat (s.endCycle k₁) (s.endCycle k₂) := by
  cases hs : s.status with
  | halted why =>
    rw [State.endCycle_halted k₁ hs, State.endCycle_halted k₂ hs]
    exact AgreeButWord.withAnswers _ s s.kbdAnswers
  | running =>
    have hpoll := AgreeButWord.pollKeyboard s.renderIfDirty
    rw [State.renderIfDirty_cfg] at hpoll
    rw [State.endCycle_running k₁ hs, State.endCycle_running k₂ hs]
    exact (hpoll k₁).symm.trans (hpoll k₂)

theorem AgreeButWord.dropAnswer (k : Nat) (s : State) : AgreeButWord k s s.dropAnswer := by
  obtain ⟨ks, h⟩ := s.dropAnswer_eq
  exact h ▸ AgreeButWord.withAnswers k s ks

/-- A step under other answers is a step too, and ends in a state that agrees outside the keyboard word (R163). -/
theorem step_withAnswers {s t : State} (ks : List (Option Word)) (h : step s = .next t) :
    ∃ t', step (s.withAnswers ks) = .next t' ∧ AgreeButWord (kbdAddr s.cfg).toNat t t' := by
  rcases step_cases h with ⟨hs, hp, rfl⟩ | ⟨hf, e, he, rfl⟩
  · exact ⟨_, step_outside (s := s.withAnswers ks) hs hp, AgreeButWord.withAnswers _ _ ks⟩
  · refine ⟨_, step_fetches (s := s.withAnswers ks) hf (exec_withAnswers ks he), ?_⟩
    have hcfg : e.cfg = s.cfg := (exec_cfg he).trans s.advancePc_cfg
    rw [State.endCycle_withAnswers, ← hcfg]
    exact (AgreeButWord.dropAnswer _ _).symm.trans <| (AgreeButWord.endCycle e _ _).trans <|
      (AgreeButWord.withAnswers _ _ ks).trans (AgreeButWord.dropAnswer _ _)

end Sys2Proof.Machine

namespace Sys2Proof.Proofs

open Sys2Proof.Machine

/-- Settles O30: the only status change among the forms of `exec` is the exception of `div`. -/
theorem onlyDivideByZeroIsRaised : Obligations.OnlyDivideByZeroIsRaised := by
  intro i s
  obtain ⟨t, ht, hstatus⟩ := exec_status_or_divideByZero i s
  refine ⟨t, ht, fun hne => ?raised, fun rd rb rc hi hz => ?recorded⟩
  case raised =>
    obtain heq | ⟨rd, rb, rc, hi, hz, rfl⟩ := hstatus
    · exact absurd heq hne
    · exact ⟨rd, rb, rc, hi, hz, s.raiseDivideByZero_status_eq⟩
  case recorded =>
    rw [hi, exec_div_of_zero rd rb hz] at ht
    cases ht
    exact s.raiseDivideByZero_status_eq

/-- Settles O36: the second step is the first one under other answers, and the two agree outside the keyboard word. -/
theorem keyboardNeverDivertsControl : Obligations.KeyboardNeverDivertsControl := by
  intro s t₁ t₂ k₁ k₂ h₁ h₂
  obtain ⟨t, ht, hagree⟩ := step_withAnswers k₂ h₁
  obtain rfl : t = t₂ := Host.Outcome.next.inj (ht.symm.trans h₂)
  exact hagree

end Sys2Proof.Proofs
end

section
/-! Proofs about loading an image (spec/70_reset_and_hazards.md R191): what a loaded address reads as, what the program
load leaves alone, and the first word fetched after it. -/

namespace Sys2Proof.Machine

/-- Inside the image a loaded memory reads the image's word (R191, R193). -/
theorem Memory.read_loadAt_add (m : Memory) (base : Nat) {words : List Word} {i : Nat} (h : i < words.length) :
    (m.loadAt base words).read (base + i) = words.getD i 0#16 := by
  have hi : base ≤ base + i ∧ base + i < base + words.length := by omega
  rw [Memory.read_loadAt, dif_pos hi, List.getD_eq_getElem _ _ h]
  simp only [Nat.add_sub_cancel_left]

/-- Outside the image a load changes no word. -/
theorem Memory.read_loadAt_of_outside (m : Memory) {base a : Nat} {words : List Word}
    (h : a < base ∨ base + words.length ≤ a) : (m.loadAt base words).read a = m.read a := by
  rw [Memory.read_loadAt, dif_neg (by omega)]

@[simp] theorem State.loadProgram_mem (s : State) (words : List Word) :
    (s.loadProgram words).mem = s.mem.loadAt s.cfg.pcInit.toNat words := rfl

@[simp] theorem State.loadProgram_reg (s : State) (words : List Word) (q : Reg) :
    (s.loadProgram words).reg q = s.reg q := rfl

@[simp] theorem State.loadProgram_pc (s : State) (words : List Word) : (s.loadProgram words).pc = s.pc := rfl

@[simp] theorem State.loadProgram_status (s : State) (words : List Word) : (s.loadProgram words).status = s.status := rfl

@[simp] theorem State.loadProgram_cfg (s : State) (words : List Word) : (s.loadProgram words).cfg = s.cfg := rfl

@[simp] theorem State.loadProgram_progLen (s : State) (words : List Word) :
    (s.loadProgram words).progLen = words.length := rfl

/-- The program load has no device effect (R191). -/
theorem State.loadProgram_sameDevices (s : State) (words : List Word) : SameDevices s (s.loadProgram words) :=
  ⟨rfl, rfl, rfl⟩

/-- PC_INIT lies in the region of every program that has a word (R165, R192). -/
theorem State.loadProgram_inProgram_pcInit (s : State) {words : List Word} (h : words ≠ []) :
    (s.loadProgram words).inProgram s.cfg.pcInit = true := by
  have hlen : 0 < words.length := List.length_pos_of_ne_nil h
  rw [State.inProgram_iff, State.loadProgram_cfg, State.loadProgram_progLen]
  omega

/-- With the pc at PC_INIT the word fetched from a loaded program is its word 0 (R191). -/
theorem State.loadProgram_fetch_of_pcInit {s : State} {words : List Word} (hpc : s.pc = s.cfg.pcInit)
    (h : words ≠ []) : (s.loadProgram words).fetch = words.getD 0 0#16 := by
  rw [State.fetch, State.load, State.loadProgram_pc, State.loadProgram_mem, hpc]
  exact Memory.read_loadAt_add s.mem s.cfg.pcInit.toNat (List.length_pos_of_ne_nil h)

end Sys2Proof.Machine

namespace Sys2Proof.Proofs

open Sys2Proof.Machine

/-- Settles O46: the load read inside and outside the image, its frame, and word 0 at PC_INIT. -/
theorem programLoadsAtPcInit : Obligations.ProgramLoadsAtPcInit := by
  intro s words
  refine ⟨fun i hi => ?inside, fun a ha => ?outside, s.loadProgram_reg words, s.loadProgram_sameDevices words,
    s.loadProgram_status words, fun hrun hpc hne => ?first⟩
  case inside =>
    rw [State.loadProgram_mem]
    exact Memory.read_loadAt_add s.mem _ hi
  case outside =>
    rw [State.loadProgram_mem]
    exact Memory.read_loadAt_of_outside s.mem ha
  case first =>
    have hregion : (s.loadProgram words).inProgram (s.loadProgram words).pc = true := by
      rw [State.loadProgram_pc, hpc]
      exact s.loadProgram_inProgram_pcInit hne
    exact ⟨⟨(s.loadProgram_status words).trans hrun, hregion⟩, State.loadProgram_fetch_of_pcInit hpc hne⟩

end Sys2Proof.Proofs
end

section
/-! Proofs that the codec loses nothing (spec/30_encoding.md R54 to R61, section 7): the fields of a packed word, and
what decodes to an instruction. -/

namespace Sys2Proof

/-! The fields of a packed word are the masked arguments (R55, R56). -/

@[simp] theorem opcodeField_encodeR (op a b c : Int) : opcodeField (encodeR op a b c) = BitVec.ofInt 4 op := by
  have h := encodeR_toNat op a b c
  have ho := ofInt_toNat_eq_emod 4 op
  apply BitVec.eq_of_toNat_eq
  rw [opcodeField_toNat]
  omega

@[simp] theorem aField_encodeR (op a b c : Int) : aField (encodeR op a b c) = BitVec.ofInt 4 a := by
  have h := encodeR_toNat op a b c
  have ha := ofInt_toNat_eq_emod 4 a
  apply BitVec.eq_of_toNat_eq
  rw [aField_toNat]
  omega

@[simp] theorem bField_encodeR (op a b c : Int) : bField (encodeR op a b c) = BitVec.ofInt 4 b := by
  have h := encodeR_toNat op a b c
  have hb := ofInt_toNat_eq_emod 4 b
  apply BitVec.eq_of_toNat_eq
  rw [bField_toNat]
  omega

@[simp] theorem cField_encodeR (op a b c : Int) : cField (encodeR op a b c) = BitVec.ofInt 4 c := by
  have h := encodeR_toNat op a b c
  have hc := ofInt_toNat_eq_emod 4 c
  apply BitVec.eq_of_toNat_eq
  rw [cField_toNat]
  omega

@[simp] theorem opcodeField_encodeI (op a imm : Int) : opcodeField (encodeI op a imm) = BitVec.ofInt 4 op := by
  have h := encodeI_toNat op a imm
  have ho := ofInt_toNat_eq_emod 4 op
  apply BitVec.eq_of_toNat_eq
  rw [opcodeField_toNat]
  omega

@[simp] theorem aField_encodeI (op a imm : Int) : aField (encodeI op a imm) = BitVec.ofInt 4 a := by
  have h := encodeI_toNat op a imm
  have ha := ofInt_toNat_eq_emod 4 a
  apply BitVec.eq_of_toNat_eq
  rw [aField_toNat]
  omega

@[simp] theorem immField_encodeI (op a imm : Int) : immField (encodeI op a imm) = BitVec.ofInt 8 imm := by
  have h := encodeI_toNat op a imm
  have hi := ofInt_toNat_eq_emod 8 imm
  apply BitVec.eq_of_toNat_eq
  rw [immField_toNat]
  omega

/-- Every instruction is the decoding of its encoding (R57). -/
theorem decode_encode (i : Instr) : decode (encode i) = i := by
  cases i with
  | nop => decide
  | _ => simp [encode, Instr.toLogical, Logical.encode, decode]

theorem fitsReg_iff (n : Int) : fitsReg n = true ↔ 0 ≤ n ∧ n < 16 := by
  rw [fitsReg, Bool.and_eq_true, decide_eq_true_eq, decide_eq_true_eq]

/-- The integers of the register field are the register indices (R57). -/
theorem fitsReg_iff_exists (n : Int) : fitsReg n = true ↔ ∃ r : Reg, n = r.toNat := by
  rw [fitsReg_iff]
  constructor
  · intro h
    have hr := ofInt_toNat_eq_emod 4 n
    exact ⟨BitVec.ofInt 4 n, by omega⟩
  · rintro ⟨r, rfl⟩
    exact ⟨Int.natCast_nonneg _, Int.ofNat_lt.mpr r.isLt⟩

/-- The integers of the immediate field are the 8-bit values (R57). -/
theorem fitsImm_iff_exists (n : Int) : fitsImm n = true ↔ ∃ imm : Imm8, n = imm.toNat := by
  constructor
  · intro h
    rw [Machine.fitsImm_iff] at h
    have himm := ofInt_toNat_eq_emod 8 n
    exact ⟨BitVec.ofInt 8 n, by omega⟩
  · rintro ⟨imm, rfl⟩
    exact Machine.fitsImm_toNat imm

theorem fitsReg_toNat (r : Reg) : fitsReg r.toNat = true := (fitsReg_iff_exists _).mpr ⟨r, rfl⟩

theorem toLogical_wf (i : Instr) : i.toLogical.wf = true := by
  cases i <;> simp [Instr.toLogical, Logical.wf, fitsReg_toNat, Machine.fitsImm_toNat]

/-- A well-formed logical instruction survives the codec (R57), by the shape of its opcode: its fields are registers
and immediates, and the ones the shape does not use are 0. -/
theorem decode_encode_toLogical {l : Logical} (h : l.wf = true) : (decode l.encode).toLogical = l := by
  obtain ⟨op, a, b, c, imm⟩ := l
  unfold Logical.wf at h
  split at h <;> rename_i hop <;>
    simp only [Bool.and_eq_true, Bool.false_eq_true, beq_iff_eq, fitsReg_iff_exists, fitsImm_iff_exists] at h hop
  case h_1 =>
    obtain ⟨⟨⟨rfl, rfl⟩, rfl⟩, rfl⟩ := h
    subst hop
    decide
  case h_2 | h_3 =>
    obtain ⟨⟨⟨⟨ra, rfl⟩, rb, rfl⟩, rfl⟩, rfl⟩ := h
    subst hop
    simp [Instr.toLogical, Logical.encode, decode]
  case h_4 | h_5 =>
    obtain ⟨⟨⟨⟨ra, rfl⟩, rfl⟩, rfl⟩, v, rfl⟩ := h
    subst hop
    simp [Instr.toLogical, Logical.encode, decode]
  all_goals
    obtain ⟨⟨⟨⟨ra, rfl⟩, rb, rfl⟩, rc, rfl⟩, rfl⟩ := h
    subst hop
    simp [Instr.toLogical, Logical.encode, decode]

end Sys2Proof

namespace Sys2Proof.Machine

/-- The three words of a materialised label decode to the two loads of `$at` and to the instruction whose operands, with
`$at` the last one, the line's operands are (R67). -/
theorem map_decode_materialise {i : Instr} {op : Nat} {regs : List Nat} (h : logicalOf op (regs ++ [1]) = i.toLogical)
    (addr : Word) :
    (materialise op regs addr).map decode =
      [.lui 1 (addr.extractLsb' 8 8), .ori 1 (addr.extractLsb' 0 8), i] := by
  have hlui (v : Imm8) : encodeI 5 1 v.toNat = encode (.lui 1 v) := rfl
  have hori (v : Imm8) : encodeI 6 1 v.toNat = encode (.ori 1 v) := rfl
  have hi : i.toLogical.encode = encode i := rfl
  simp only [materialise, h, hlui, hori, hi, List.map_cons, List.map_nil, decode_encode]

/-- The two halves of an address, as numbers (R67). -/
theorem extractLsb'_eq_of_toNat {addr : Word} {hi lo : Imm8} (hhi : hi.toNat = addr.toNat / 256)
    (hlo : lo.toNat = addr.toNat % 256) : addr.extractLsb' 8 8 = hi ∧ addr.extractLsb' 0 8 = lo := by
  have ha := addr.isLt
  constructor <;> apply BitVec.eq_of_toNat_eq <;> rw [BitVec.extractLsb'_toNat, Nat.shiftRight_eq_div_pow] <;> omega

end Sys2Proof.Machine

namespace Sys2Proof.Proofs

open Sys2Proof.Machine

/-- Settles O5: one case per instruction, and one per shape of a well-formed logical instruction. -/
theorem decodeEncodeAgree : Obligations.DecodeEncodeAgree :=
  ⟨fun i => ⟨decode_encode i, toLogical_wf i⟩, fun _ => decode_encode_toLogical⟩

/-- Settles O1: six fixed words, decoded. -/
theorem decodeSpecWords : Obligations.DecodeSpecWords := by
  unfold Obligations.DecodeSpecWords
  decide

/-- Settles O51: each mnemonic's operands with `$at` appended are the operands of its instruction on `$at`. -/
theorem labelMaterialisation : Obligations.LabelMaterialisation := by
  intro a b addr hi lo hhi hlo
  obtain ⟨rfl, rfl⟩ := extractLsb'_eq_of_toNat hhi hlo
  exact ⟨map_decode_materialise (i := .lw a 1) rfl addr, map_decode_materialise (i := .sw a 1) rfl addr,
    map_decode_materialise (i := .beq a b 1) rfl addr, map_decode_materialise (i := .bne a b 1) rfl addr,
    map_decode_materialise (i := .sgt a b 1) rfl addr, map_decode_materialise (i := .seq a b 1) rfl addr,
    map_decode_materialise (i := .nand a b 1) rfl addr, map_decode_materialise (i := .sll a b 1) rfl addr,
    map_decode_materialise (i := .srl a b 1) rfl addr, map_decode_materialise (i := .add a b 1) rfl addr,
    map_decode_materialise (i := .sub a b 1) rfl addr, map_decode_materialise (i := .mul a b 1) rfl addr,
    map_decode_materialise (i := .div a b 1) rfl addr⟩

end Sys2Proof.Proofs
end

section
/-! Proofs about the R-type instructions (spec/44_compare.md, 45_logic_shift.md, 46_arithmetic.md): their one frame, and
what each function of two words computes. -/

namespace Sys2Proof.Machine

@[simp] theorem State.withResult_reg_self (s : State) (f : Word → Word → Word) (rd rb rc : Reg) :
    (s.withResult f rd rb rc).reg rd = f (s.reg rb) (s.reg rc) :=
  State.setReg_reg_self s rd _

/-- The frame of an R-type instruction (R54). -/
theorem State.withResult_writesOnlyReg (s : State) (f : Word → Word → Word) (rd rb rc : Reg) :
    WritesOnlyReg rd s (s.withResult f rd rb rc) :=
  State.setReg_writesOnlyReg s rd _

theorem exec_sgt (rd rb rc : Reg) (s : State) : exec (.sgt rd rb rc) s = .next (s.withResult aluSgt rd rb rc) := rfl

theorem exec_seq (rd rb rc : Reg) (s : State) : exec (.seq rd rb rc) s = .next (s.withResult aluSeq rd rb rc) := rfl

theorem exec_nand (rd rb rc : Reg) (s : State) : exec (.nand rd rb rc) s = .next (s.withResult aluNand rd rb rc) := rfl

theorem exec_sll (rd rb rc : Reg) (s : State) : exec (.sll rd rb rc) s = .next (s.withResult aluSll rd rb rc) := rfl

theorem exec_srl (rd rb rc : Reg) (s : State) : exec (.srl rd rb rc) s = .next (s.withResult aluSrl rd rb rc) := rfl

theorem exec_add (rd rb rc : Reg) (s : State) : exec (.add rd rb rc) s = .next (s.withResult aluAdd rd rb rc) := rfl

theorem exec_sub (rd rb rc : Reg) (s : State) : exec (.sub rd rb rc) s = .next (s.withResult aluSub rd rb rc) := rfl

theorem exec_mul (rd rb rc : Reg) (s : State) : exec (.mul rd rb rc) s = .next (s.withResult aluMul rd rb rc) := rfl

/-! The functions of two words. -/

theorem aluSgt_of_lt {b c : Word} (h : c.toInt < b.toInt) : aluSgt b c = 1#16 := by
  rw [aluSgt, decide_eq_true h]
  rfl

theorem aluSgt_of_le {b c : Word} (h : b.toInt ≤ c.toInt) : aluSgt b c = 0#16 := by
  rw [aluSgt, decide_eq_false h.not_gt]
  rfl

theorem aluSeq_of_eq {b c : Word} (h : b = c) : aluSeq b c = 1#16 := by
  rw [aluSeq, beq_iff_eq.mpr h]
  rfl

theorem aluSeq_of_ne {b c : Word} (h : b ≠ c) : aluSeq b c = 0#16 := by
  rw [aluSeq, beq_eq_false_iff_ne.mpr h]
  rfl

theorem aluNand_getLsbD (b c : Word) {i : Nat} (h : i < 16) :
    (aluNand b c).getLsbD i = !(b.getLsbD i && c.getLsbD i) := by
  rw [aluNand, BitVec.getLsbD_not, BitVec.getLsbD_and, decide_eq_true h, Bool.true_and]

/-- The shift by an amount below 16 and the zero from 16 on are one shift (R131). -/
theorem aluSll_eq (b c : Word) : aluSll b c = b <<< c.toNat := by
  unfold aluSll
  split
  case isTrue h =>
    have hw := wrap16_toNat (uval b * 2 ^ uval c : Nat)
    apply BitVec.eq_of_toNat_eq
    rw [BitVec.toNat_shiftLeft, Nat.shiftLeft_eq]
    simp only [uval] at hw ⊢
    omega
  case isFalse h => exact (BitVec.shiftLeft_eq_zero (not_lt.mp h)).symm

/-- The shift by an amount below 16 and the zero from 16 on are one shift (R132). -/
theorem aluSrl_eq (b c : Word) : aluSrl b c = b >>> c.toNat := by
  unfold aluSrl
  split
  case isTrue h =>
    have hlt := (b >>> c.toNat).isLt
    rw [BitVec.toNat_ushiftRight, Nat.shiftRight_eq_div_pow] at hlt
    apply BitVec.eq_of_toNat_eq
    rw [BitVec.toNat_ushiftRight, Nat.shiftRight_eq_div_pow, ← Nat.cast_inj (R := Int), wrap16_toNat]
    exact Int.emod_eq_of_lt (Int.natCast_nonneg _) (Int.ofNat_lt.mpr hlt)
  case isFalse h => exact (BitVec.ushiftRight_eq_zero (not_lt.mp h)).symm

theorem aluAdd_eq (b c : Word) : aluAdd b c = b + c := wrap16_add b c

theorem aluSub_toNat (b c : Word) : ((aluSub b c).toNat : Int) = ((b.toNat : Int) - c.toNat) % 65536 := wrap16_toNat _

/-- The low half of the signed product is the product of the words (R142). -/
theorem aluMul_eq (b c : Word) : aluMul b c = b * c := by
  rw [aluMul, wrap16, BitVec.ofInt_mul, BitVec.ofInt_toInt, BitVec.ofInt_toInt]

theorem aluMul_toNat_signed (b c : Word) : ((aluMul b c).toNat : Int) = b.toInt * c.toInt % 65536 := wrap16_toNat _

/-- Division of words is the signed division of their library type (R143, R145). -/
theorem aluDiv_eq (b c : Word) : aluDiv b c = b.sdiv c := by
  apply BitVec.eq_of_toInt_eq
  rw [aluDiv, wrap16, BitVec.toInt_ofInt, BitVec.toInt_sdiv]

/-- A quotient rounded toward zero is negative exactly when it is not zero and the signs differ (R145). -/
theorem tdiv_neg_iff {b c : Int} (hc : c ≠ 0) : b.tdiv c < 0 ↔ b.tdiv c ≠ 0 ∧ (b < 0 ↔ 0 < c) := by
  rcases lt_or_ge b 0 with hb | hb <;> rcases lt_or_gt_of_ne hc with hc | hc
  · have := Int.tdiv_nonneg_of_nonpos_of_nonpos hb.le hc.le
    omega
  · have := Int.tdiv_nonneg (a := -b) (by omega) hc.le
    rw [Int.neg_tdiv] at this
    omega
  · have := Int.tdiv_nonpos_of_nonneg_of_nonpos hb hc.le
    omega
  · have := Int.tdiv_nonneg hb hc.le
    omega

end Sys2Proof.Machine

namespace Sys2Proof.Proofs

open Sys2Proof.Machine

/-- Settles O20: the two answers of the signed comparison. -/
theorem sgtComparesSigned : Obligations.SgtComparesSigned := by
  intro rd rb rc s
  refine ⟨_, exec_sgt rd rb rc s, ?_, ?_, s.withResult_writesOnlyReg aluSgt rd rb rc⟩ <;> rw [State.withResult_reg_self]
  · exact aluSgt_of_lt
  · exact aluSgt_of_le

/-- Settles O21: the two answers of the comparison. -/
theorem seqComparesEqual : Obligations.SeqComparesEqual := by
  intro rd rb rc s
  refine ⟨_, exec_seq rd rb rc s, ?_, ?_, s.withResult_writesOnlyReg aluSeq rd rb rc⟩ <;> rw [State.withResult_reg_self]
  · exact aluSeq_of_eq
  · exact aluSeq_of_ne

/-- Settles O22: each bit of the negated conjunction. -/
theorem nandIsBitwise : Obligations.NandIsBitwise := by
  intro rd rb rc s
  refine ⟨_, exec_nand rd rb rc s, ?_, s.withResult_writesOnlyReg aluNand rd rb rc⟩
  rw [State.withResult_reg_self]
  exact fun i => aluNand_getLsbD _ _

/-- Settles O23: the result is the word's left shift by the whole amount. -/
theorem sllShiftsLeft : Obligations.SllShiftsLeft := by
  intro rd rb rc s
  refine ⟨_, exec_sll rd rb rc s, ?_, ?_, ?_, s.withResult_writesOnlyReg aluSll rd rb rc⟩ <;>
    rw [State.withResult_reg_self, aluSll_eq]
  · intro _
    rw [BitVec.toNat_shiftLeft, Nat.shiftLeft_eq]
  · exact BitVec.shiftLeft_eq_zero

/-- Settles O24: the result is the word's logical right shift by the whole amount. -/
theorem srlShiftsRightLogical : Obligations.SrlShiftsRightLogical := by
  intro rd rb rc s
  refine ⟨_, exec_srl rd rb rc s, ?_, ?_, ?_, s.withResult_writesOnlyReg aluSrl rd rb rc⟩ <;>
    rw [State.withResult_reg_self, aluSrl_eq]
  · intro _
    rw [BitVec.toNat_ushiftRight, Nat.shiftRight_eq_div_pow]
  · exact BitVec.ushiftRight_eq_zero

/-- Settles O25: the sum of words wraps. -/
theorem addWraps : Obligations.AddWraps := by
  intro rd rb rc s
  refine ⟨_, exec_add rd rb rc s, ?_, s.withResult_writesOnlyReg aluAdd rd rb rc⟩
  rw [State.withResult_reg_self, aluAdd_eq, BitVec.toNat_add]

/-- Settles O26: the difference is narrowed to 16 bits. -/
theorem subWraps : Obligations.SubWraps := by
  intro rd rb rc s
  refine ⟨_, exec_sub rd rb rc s, ?_, s.withResult_writesOnlyReg aluSub rd rb rc⟩
  rw [State.withResult_reg_self, aluSub_toNat]

/-- Settles O27: the product of words is the low half of the signed and of the unsigned product. -/
theorem mulKeepsLowHalf : Obligations.MulKeepsLowHalf := by
  intro rd rb rc s
  refine ⟨_, exec_mul rd rb rc s, ?unsigned, ?signed, s.withResult_writesOnlyReg aluMul rd rb rc⟩ <;>
    rw [State.withResult_reg_self]
  case unsigned => rw [aluMul_eq, BitVec.toNat_mul]
  case signed => rw [aluMul_toNat_signed]

/-- Settles O28: the quotient is `Int.tdiv`, and the signed division of words is it but at
-32768 / -1. -/
theorem divRoundsTowardZero : Obligations.DivRoundsTowardZero := by
  intro rd rb rc s hc
  have hc' : (s.reg rc).toInt ≠ 0 := fun h => hc (BitVec.eq_of_toInt_eq h)
  refine ⟨_, exec_div_of_ne_zero rd rb hc, ⟨(s.reg rb).toInt.tdiv (s.reg rc).toInt, Int.natAbs_tdiv _ _,
    tdiv_neg_iff hc', ?wrapped, fun hno => ?exact⟩, fun hb hc => ?overflow,
    s.withResult_writesOnlyReg aluDiv rd rb rc⟩ <;>
    rw [State.withResult_reg_self]
  case wrapped => exact wrap16_toNat _
  case exact =>
    rw [aluDiv_eq]
    exact BitVec.toInt_sdiv_of_ne_or_ne _ _ (not_and_or.mp hno)
  case overflow =>
    rw [hb, hc]
    decide

end Sys2Proof.Proofs
end

section
/-! Proofs about `ori`, and about the pair `lui`, `ori` that builds a word (spec/43_immediate.md sections 2 and 3). -/

namespace Sys2Proof.Machine

theorem exec_ori (rd : Reg) (imm : Imm8) (s : State) :
    exec (.ori rd imm) s = .next (s.setReg rd (s.reg rd ||| immLow imm)) := rfl

/-- The zero-extended immediate holds the immediate's own bits, which end at bit 7 (R61). -/
theorem immLow_getLsbD (imm : Imm8) {i : Nat} (h : i < 16) : (immLow imm).getLsbD i = imm.getLsbD i := by
  rw [immLow, zext8, BitVec.getLsbD_setWidth, decide_eq_true h, Bool.true_and]

theorem or_immLow_getLsbD (v : Word) (imm : Imm8) {i : Nat} (h : i < 16) :
    (v ||| immLow imm).getLsbD i = (v.getLsbD i || imm.getLsbD i) := by
  rw [BitVec.getLsbD_or, immLow_getLsbD imm h]

/-- A word is its high byte in its place, with its low byte OR-ed in. -/
theorem immHigh_or_immLow (v : Word) : immHigh (v.extractLsb' 8 8) ||| immLow (v.extractLsb' 0 8) = v := by
  apply BitVec.eq_of_getLsbD_eq
  intro i hi
  rw [or_immLow_getLsbD _ _ hi, immHigh, zext8, BitVec.getLsbD_shiftLeft, BitVec.getLsbD_setWidth,
    BitVec.getLsbD_extractLsb', BitVec.getLsbD_extractLsb']
  rcases lt_or_ge i 8 with h | h
  · simp [h]
  · have hlow : 8 + (i - 8) = i := by omega
    simp [hi, hlow, show ¬ i < 8 by omega, show i - 8 < 8 by omega, show i - 8 < 16 by omega]

end Sys2Proof.Machine

namespace Sys2Proof.Proofs

open Sys2Proof.Machine

/-- Settles O18: the immediate has no bit above 7, so the OR leaves the high byte. -/
theorem oriMergesLowByte : Obligations.OriMergesLowByte := by
  intro rd imm s
  refine ⟨_, exec_ori rd imm s, fun i hlo hi => ?high, fun i hi => ?low, State.setReg_writesOnlyReg s rd _⟩ <;>
    rw [State.setReg_reg_self, or_immLow_getLsbD _ _ (by omega)]
  case high => rw [BitVec.getLsbD_of_ge imm i hlo, Bool.or_false]

/-- Settles O19: between the two writes of the register only the pc advances. -/
theorem luiOriBuildsWord : Obligations.LuiOriBuildsWord := by
  intro r v s hr
  refine ⟨_, _, exec_lui r _ s, exec_ori r _ _, ?word, ?pc, fun q hq hpc => ?others, fun _ => rfl, ⟨rfl, rfl, rfl⟩,
    ⟨rfl, rfl, rfl⟩, rfl⟩
  case word => rw [State.setReg_reg_self, State.setPc_reg_ne _ _ hr, State.setReg_reg_self, immHigh_or_immLow]
  case pc =>
    have hpc (t : State) (w : Word) : (t.setReg r w).pc = t.pc := State.setReg_reg_ne t w hr.symm
    rw [hpc, State.setPc_pc, hpc]
  case others => rw [State.setReg_reg_ne _ _ hq, State.setPc_reg_ne _ _ hpc, State.setReg_reg_ne _ _ hq]

end Sys2Proof.Proofs
end

section
/-! Proofs about the cycle (spec/40_cycle_nop.md R80, 60_exceptions.md): the three ways a step answers a next state,
what each leaves, and the configuration, which no number of cycles changes. -/

namespace Sys2Proof.Machine

theorem exec_nop (s : State) : exec .nop s = .next s := rfl

/-- The four forms of the state an instruction leaves. -/
theorem exec_inversion {i : Instr} {s e : State} (h : exec i s = .next e) :
    e = s ∨ (∃ r v, destReg i = some r ∧ e = s.setReg r v) ∨
    (∃ rs ra, i = .sw rs ra ∧ e = s.memWrite (s.reg ra) (s.reg rs)) ∨
    (∃ rd rb rc, i = .div rd rb rc ∧ s.reg rc = 0#16 ∧ e = s.raiseDivideByZero) := by
  have heq {t : State} (ht : exec i s = .next t) : e = t := Host.Outcome.next.inj (h.symm.trans ht)
  rcases exec_cases i s with ht | ⟨r, v, hd, ht⟩ | ⟨rs, ra, hi, ht⟩ | ⟨rd, rb, rc, hi, hz, ht⟩
  · exact .inl (heq ht)
  · exact .inr (.inl ⟨r, v, hd, heq ht⟩)
  · exact .inr (.inr (.inl ⟨rs, ra, hi, heq ht⟩))
  · exact .inr (.inr (.inr ⟨rd, rb, rc, hi, hz, heq ht⟩))

/-- An instruction that halted the machine ends the step (R161). -/
theorem step_of_exec_halted {s e : State} (hf : s.fetches)
    (he : exec (decode (s.mem.read s.pc.toNat)) (s.setPc (s.pc + 1)) = .next e) (hs : e.status ≠ .running) :
    step s = .next e := by
  cases hstatus : e.status with
  | running => exact absurd hstatus hs
  | halted why =>
    rw [step_of_exec hf he, State.endCycle_halted _ hstatus, State.dropAnswer_halted hstatus]

/-- After an instruction that did not halt the machine the cycle renders and polls (R80 steps 6 and 7). -/
theorem step_of_exec_running {s e : State} (hf : s.fetches)
    (he : exec (decode (s.mem.read s.pc.toNat)) (s.setPc (s.pc + 1)) = .next e) (hs : e.status = .running) :
    step s = .next ((e.renderIfDirty.pollKeyboard s.nextAnswer).withAnswers e.kbdAnswers.tail) := by
  rw [step_of_exec hf he, State.endCycle_running _ hs, State.dropAnswer_running (by simpa using hs),
    State.pollKeyboard_kbdAnswers, State.renderIfDirty_kbdAnswers]

/-- The three ways a step answers a next state: the halting check, a `div` by zero, or a whole cycle (R80, R161,
R165). -/
theorem step_inversion {s t : State} (h : step s = .next t) :
    (s.status = .running ∧ s.inProgram s.pc = false ∧ t = s.halt .pcOutOfProgram) ∨
    (s.fetches ∧ (∃ rd rb rc, decode (s.mem.read s.pc.toNat) = .div rd rb rc ∧ (s.setPc (s.pc + 1)).reg rc = 0#16) ∧
      t = (s.setPc (s.pc + 1)).raiseDivideByZero) ∨
    (s.fetches ∧ ∃ e, exec (decode (s.mem.read s.pc.toNat)) (s.setPc (s.pc + 1)) = .next e ∧ e.status = .running ∧
      t = (e.renderIfDirty.pollKeyboard s.nextAnswer).withAnswers e.kbdAnswers.tail) := by
  rcases step_cases h with houtside | ⟨hf, -⟩
  · exact .inl houtside
  · obtain ⟨e, he, hrun | ⟨rd, rb, rc, hi, hz, rfl⟩⟩ :=
      exec_status_or_divideByZero (decode (s.mem.read s.pc.toNat)) (s.setPc (s.pc + 1))
    · have hs : e.status = .running := hrun.trans hf.1
      rw [step_of_exec_running hf he hs] at h
      cases h
      exact .inr (.inr ⟨hf, e, he, hs, rfl⟩)
    · rw [step_of_exec_halted hf he (by simp)] at h
      cases h
      exact .inr (.inl ⟨hf, ⟨rd, rb, rc, hi, hz⟩, rfl⟩)

/-- A dirty display is rendered as the words from VIDEO_BASE on, by their offsets (R172). -/
theorem State.videoSnapshot_eq (s : State) :
    s.videoSnapshot =
      (List.range (memWords - s.cfg.videoBase.toNat)).map fun i => s.mem.read (s.cfg.videoBase.toNat + i) := by
  rw [State.videoSnapshot, List.range'_eq_map_range, List.map_map]
  rfl

/-! Runs of cycles (R166, R168). -/

/-- What every step keeps, every number of cycles keeps. -/
theorem runCycles_invariant {P : State → Prop} (hstep : ∀ s t, P s → step s = .next t → P t) (n : Nat) {s : State}
    (hs : P s) : P (runCycles n s) := by
  induction n generalizing s with
  | zero => exact hs
  | succ n ih =>
    rw [runCycles]
    split
    case h_1 t ht => exact ih (hstep s t hs ht)
    all_goals exact hs

/-- A halted machine is where its run ends (R167). -/
theorem runCycles_halted {s : State} {why : Halt} (h : s.status = .halted why) (n : Nat) : runCycles n s = s := by
  cases n with
  | zero => rfl
  | succ n => rw [runCycles, step_halted h]

/-- No instruction changes the constants of the run or the host's coming answers (R3, R4). -/
theorem exec_sameRun {i : Instr} {s e : State} (h : exec i s = .next e) : SameRun s e := by
  rcases exec_inversion h with rfl | ⟨r, v, -, rfl⟩ | ⟨rs, ra, -, rfl⟩ | ⟨rd, rb, rc, -, -, rfl⟩
  case inr.inr.inl => exact State.memWrite_sameRun s _ _
  all_goals exact ⟨rfl, rfl, rfl⟩

/-- No step changes the configuration or the program length (R3). -/
theorem step_cfg_progLen {s t : State} (h : step s = .next t) : t.cfg = s.cfg ∧ t.progLen = s.progLen := by
  rcases step_inversion h with ⟨-, -, rfl⟩ | ⟨-, -, rfl⟩ | ⟨-, e, he, -, rfl⟩
  · exact ⟨rfl, rfl⟩
  · exact ⟨rfl, rfl⟩
  · obtain ⟨hcfg, hlen, -⟩ := exec_sameRun he
    simp [hcfg, hlen]

/-! A run that ended in the fault (R167). -/

theorem State.safe_eq_false_iff (s : State) : s.safe = false ↔ ∃ a, s.status = .halted (.divideByZero a) := by
  cases h : s.status with
  | running => simp [State.safe, h]
  | halted why => cases why <;> simp [State.safe, h]

end Sys2Proof.Machine

namespace Sys2Proof.Proofs

open Sys2Proof.Machine

/-- Settles O7: the halting check, then `exec` on the decoded word, then the cycle's end where `exec` did not halt. -/
theorem stepRunsDecodedInstruction : Obligations.StepRunsDecodedInstruction := by
  refine ⟨fun s hs => ⟨fun hout => ?outside, fun hlo hhi => ?inside⟩, fun t => State.renderIfDirty_clean,
    fun t ht => ?render, fun t => rfl, fun t c => ?poll⟩
  case outside => exact step_outside hs ((s.inProgram_eq_false_iff _).mpr hout)
  case inside =>
    have hf : s.fetches := ⟨hs, (s.inProgram_iff _).mpr ⟨hlo, hhi⟩⟩
    obtain ⟨e, he, -⟩ := exec_status_or_divideByZero (decode (s.mem.read s.pc.toNat)) (s.setPc (s.pc + 1))
    refine ⟨fun t => step_of_exec_halted hf, fun t => step_of_exec_running hf, fun f h => ?_, fun r h => ?_⟩ <;>
      (rw [he] at h; cases h)
  case render => rw [State.renderIfDirty_dirty ht, State.videoSnapshot_eq]; rfl
  case poll => rw [← wrap16_pred]; rfl

/-- Settles O8: the step of a halted machine is a fault, which ends every run. -/
theorem haltedIsTerminal : Obligations.HaltedIsTerminal :=
  fun _ _ h => ⟨step_halted h, runCycles_halted h⟩

/-- Settles O40: one step, then the induction over the cycles. -/
theorem configurationIsConstant : Obligations.ConfigurationIsConstant := by
  refine ⟨fun s t => step_cfg_progLen, fun n s => ?run⟩
  refine runCycles_invariant (P := fun u => u.cfg = s.cfg ∧ u.progLen = s.progLen) (fun u v hu h => ?_) n ⟨rfl, rfl⟩
  obtain ⟨hcfg, hlen⟩ := step_cfg_progLen h
  exact ⟨hcfg.trans hu.1, hlen.trans hu.2⟩

/-- Settles O29: the exception keeps everything but the status, and it ends the step. -/
theorem divByZeroHalts : Obligations.DivByZeroHalts := by
  have hraise (s : State) : s.raiseDivideByZero = { s with status := .halted (.divideByZero (s.pc - 1)) } := by
    rw [State.raiseDivideByZero, wrap16_pred]
    rfl
  refine ⟨fun rd rb rc s hz => ?_, fun rd rb rc s hf hi hz => ?_⟩
  · rw [exec_div_of_zero rd rb hz, hraise]
  · have he := exec_div_of_zero rd rb hz
    rw [← hi] at he
    rw [step_of_exec_halted hf he (by simp), hraise, State.setPc_pc, BitVec.add_sub_cancel]

/-- Settles O31: of the three ways to a next state only the exception leaves one that is not safe. -/
theorem onlyDivByZeroIsUnsafe : Obligations.OnlyDivByZeroIsUnsafe := by
  intro s t h
  rw [State.safe_eq_false_iff]
  rcases step_inversion h with ⟨-, hp, rfl⟩ | ⟨hf, hdiv, rfl⟩ | ⟨-, e, he, hs, rfl⟩
  · exact iff_of_false (by simp) fun ⟨hf, _⟩ => absurd hf.2 (by simp [hp])
  · exact iff_of_true ⟨_, State.raiseDivideByZero_status _⟩ ⟨hf, hdiv⟩
  · refine iff_of_false (by simp [hs]) fun ⟨_, rd, rb, rc, hi, hz⟩ => ?_
    rw [hi, exec_div_of_zero rd rb hz] at he
    cases he
    cases hs

end Sys2Proof.Proofs
end

section
/-! Proofs about memory and the devices over a whole step (spec/20_memory.md, 60_exceptions.md sections 7 and 8): what
changes a word, what the poll leaves, and the fetch and the load after a store. -/

namespace Sys2Proof.Machine

/-- An instruction changes a word of memory only as the word an `sw` stores (R36). -/
theorem sw_of_exec_read_ne {i : Instr} {s e : State} {a : Nat} (h : exec i s = .next e)
    (ha : e.mem.read a ≠ s.mem.read a) : ∃ rs ra, i = .sw rs ra ∧ a = uval (s.effAddr ra) := by
  rcases exec_inversion h with rfl | ⟨r, v, -, rfl⟩ | ⟨rs, ra, hi, rfl⟩ | ⟨rd, rb, rc, -, -, rfl⟩
  case inr.inr.inl =>
    refine ⟨rs, ra, hi, ?_⟩
    by_contra hne
    rw [State.memWrite_mem] at ha
    exact ha (Memory.read_write_ne _ _ hne)
  all_goals exact absurd rfl ha

/-- The cycle's end keeps every register (R80). -/
theorem State.cycleEnd_reg (e : State) (k : Option Word) (ks : List (Option Word)) (q : Reg) :
    ((e.renderIfDirty.pollKeyboard k).withAnswers ks).reg q = e.reg q := by
  rw [State.withAnswers_reg, State.pollKeyboard_reg, State.renderIfDirty_reg]

/-- Memory after a whole cycle, word by word: the keyboard word holds a delivered character (R175). -/
theorem State.cycleEnd_read (e : State) (k : Option Word) (ks : List (Option Word)) (a : Nat) :
    ((e.renderIfDirty.pollKeyboard k).withAnswers ks).mem.read a =
      if a = (kbdAddr e.cfg).toNat then k.getD (e.mem.read a) else e.mem.read a := by
  rw [State.withAnswers_mem, State.pollKeyboard_read, State.renderIfDirty_cfg, State.renderIfDirty_mem]

/-- A word that no character is delivered to is as the instruction left it (R175). -/
theorem State.cycleEnd_read_of_not_delivered (e : State) {k : Option Word} (ks : List (Option Word)) {a : Nat}
    (h : k = none ∨ a ≠ (kbdAddr e.cfg).toNat) :
    ((e.renderIfDirty.pollKeyboard k).withAnswers ks).mem.read a = e.mem.read a := by
  rw [State.cycleEnd_read]
  rcases h with rfl | h
  · exact ite_self _
  · exact if_neg h

/-- The state after a fetching step whose instruction does not halt, when the instruction's state is known (R80). -/
theorem step_eq_of_exec_running {s t e : State} (hf : s.fetches) (h : step s = .next t)
    (he : exec (decode (s.mem.read s.pc.toNat)) (s.setPc (s.pc + 1)) = .next e) (hs : e.status = .running) :
    t = (e.renderIfDirty.pollKeyboard s.nextAnswer).withAnswers e.kbdAnswers.tail :=
  Host.Outcome.next.inj (h.symm.trans (step_of_exec_running hf he hs))

end Sys2Proof.Machine

namespace Sys2Proof

theorem Cfg.wf_iff (c : Cfg) : c.wf = true ↔ 1 ≤ c.videoBase.toNat := decide_eq_true_iff

theorem decode_of_opcode_zero {w : Word} (h : w.toNat < 4096) : decode w = .nop := by
  have hop : w.toNat / 4096 = 0 := by omega
  simp only [decode, opcodeField_toNat, hop]

end Sys2Proof

namespace Sys2Proof.Proofs

open Sys2Proof.Machine

/-- Settles O33: the instruction or the poll changed the word. -/
theorem onlyStoresAndPollWriteMemory : Obligations.OnlyStoresAndPollWriteMemory := by
  intro s t a h ha
  rcases step_inversion h with ⟨-, -, rfl⟩ | ⟨-, -, rfl⟩ | ⟨-, e, he, -, rfl⟩
  case inl => exact absurd rfl ha
  case inr.inl => exact absurd rfl ha
  case inr.inr =>
    by_cases hpoll : s.nextAnswer = none ∨ a ≠ (kbdAddr e.cfg).toNat
    · rw [State.cycleEnd_read_of_not_delivered e _ hpoll] at ha
      exact .inl (sw_of_exec_read_ne he ha)
    · obtain ⟨hsome, hkbd⟩ := not_or.mp hpoll
      rw [exec_cfg he] at hkbd
      exact .inr ⟨not_not.mp hkbd, Option.ne_none_iff_exists'.mp hsome⟩

/-- Settles O35: the poll after the instruction, at the keyboard address of a legal configuration. -/
theorem keyboardPollDelivers : Obligations.KeyboardPollDelivers := by
  intro s t e hwf hf he hs h
  obtain rfl := step_eq_of_exec_running hf h he hs
  obtain ⟨hcfg, -, hanswers⟩ := exec_sameRun he
  have hkbd : (kbdAddr e.cfg).toNat = s.cfg.videoBase.toNat - 1 := by
    rw [hcfg]
    exact kbdAddr_toNat ((Cfg.wf_iff _).mp hwf)
  refine ⟨?flag, ?answers, fun c hc => ?delivered, fun a ha => ?untouched⟩
  case flag => exact State.pollKeyboard_keyboardHasChar _ _
  case answers => exact congrArg List.tail hanswers
  case delivered =>
    have hc : s.nextAnswer = some c := hc
    rw [State.cycleEnd_read, if_pos hkbd.symm, hc, Option.getD_some]
  case untouched => exact State.cycleEnd_read_of_not_delivered e _ (hkbd ▸ ha)

/-- Settles O38: the stored word stays in memory to the next fetch, since the poll does not write it. -/
theorem fetchSeesStore : Obligations.FetchSeesStore := by
  intro s t rs ra hf hi h haddr hpoll
  have he := exec_sw rs ra (s.setPc (s.pc + 1))
  rw [← hi] at he
  obtain rfl := step_eq_of_exec_running hf h he (by simpa using hf.1)
  rw [State.fetch, State.load, State.cycleEnd_read_of_not_delivered _ _ ?notDelivered, ← haddr, State.memWrite_mem]
  case notDelivered => exact hpoll.imp id fun hne hn => hne (BitVec.eq_of_toNat_eq (by simpa using hn))
  exact Memory.read_write_self _ _ _

/-- Settles O39: the memory after a store, at its address and at the others. -/
theorem loadReturnsLastStore : Obligations.LoadReturnsLastStore := by
  intro rs ra rd rb s
  refine ⟨_, _, exec_sw rs ra s, exec_lw rd rb _, ?_⟩
  rw [State.setReg_reg_self, State.load, State.memWrite_reg, State.memWrite_mem]
  refine ⟨fun heq => ?same, fun hne => ?other⟩
  case same => rw [heq, Memory.read_write_self]
  case other => exact Memory.read_write_ne _ _ fun h => hne (BitVec.eq_of_toNat_eq h)

/-- Settles O11: the cycle of an instruction that leaves the state as it is: the advanced pc and the poll remain. -/
theorem nopOnlyAdvances : Obligations.NopOnlyAdvances := by
  refine ⟨exec_nop, by decide, fun w => decode_of_opcode_zero, fun s hf hw hclean => ?cycle⟩
  have he := exec_nop (s.setPc (s.pc + 1))
  rw [← decode_of_opcode_zero hw] at he
  refine ⟨_, step_of_exec_running hf he hf.1, ?pc, fun q hq => ?regs, ?status, ?dirty, ?events, ?cfg, ?progLen, ?flag,
    rfl, fun a ha => ?words, fun hnone a => ?memory⟩
  case pc =>
    rw [State.pc, State.cycleEnd_reg]
    exact (congrArg BitVec.toNat (s.setPc_pc _)).trans (BitVec.toNat_add _ _)
  case regs => rw [State.cycleEnd_reg, State.setPc_reg_ne _ _ hq]
  case status => simpa using hf.1
  case dirty => simp
  case events =>
    rw [State.renderIfDirty_clean (s := s.setPc (s.pc + 1)) hclean]
    simp
  case cfg => simp
  case progLen => simp
  case flag => exact State.pollKeyboard_keyboardHasChar _ _
  case words => exact State.cycleEnd_read_of_not_delivered (s.setPc (s.pc + 1)) _ (.inr ha)
  case memory => exact State.cycleEnd_read_of_not_delivered (s.setPc (s.pc + 1)) _ (.inl hnone)

end Sys2Proof.Proofs
end

section
/-! Proofs about the legal states and the event stream (spec/10_state.md section 3, 60_exceptions.md section 7): what a
step keeps, and the two events of a video store. -/

namespace Sys2Proof.Machine

/-- Every instruction keeps the canonical form of memory. -/
theorem exec_mem_wf {i : Instr} {s e : State} (h : exec i s = .next e) (hwf : s.mem.wf = true) : e.mem.wf = true := by
  rcases exec_inversion h with rfl | ⟨r, v, -, rfl⟩ | ⟨rs, ra, -, rfl⟩ | ⟨rd, rb, rc, -, -, rfl⟩
  case inr.inr.inl =>
    rw [State.memWrite_mem]
    exact Memory.wf_write _ hwf (uval_lt _)
  all_goals exact hwf

/-- Every step keeps the canonical form of memory. -/
theorem step_mem_wf {s t : State} (h : step s = .next t) (hwf : s.mem.wf = true) : t.mem.wf = true := by
  rcases step_inversion h with ⟨-, -, rfl⟩ | ⟨-, -, rfl⟩ | ⟨-, e, he, -, rfl⟩
  · exact hwf
  · exact hwf
  · refine State.pollKeyboard_wf (s := e.renderIfDirty) _ ?_
    rw [State.renderIfDirty_mem]
    exact exec_mem_wf he hwf

/-- The display is clean at every cycle boundary (R18). -/
theorem step_displayDirty {s t : State} (h : step s = .next t) (hclean : s.displayDirty = false) :
    t.displayDirty = false := by
  rcases step_inversion h with ⟨-, -, rfl⟩ | ⟨-, -, rfl⟩ | ⟨-, e, -, -, rfl⟩
  · exact hclean
  · exact hclean
  · simp

/-- A step from a legal state leads to a legal state. -/
theorem step_inv {s t : State} (hinv : s.Inv) (h : step s = .next t) : t.Inv := by
  obtain ⟨hmem, hcfg, hfits, hclean⟩ := hinv
  obtain ⟨hsame, hlen⟩ := step_cfg_progLen h
  exact ⟨step_mem_wf h hmem, hsame ▸ hcfg, by rwa [hsame, hlen], step_displayDirty h hclean⟩

/-- On a clean display an instruction stores into the video region, or leaves the display clean and emits nothing
(R171). -/
theorem exec_videoStore_or_clean {i : Instr} {s e : State} (h : exec i s = .next e) (hclean : s.displayDirty = false) :
    (∃ rs ra, i = .sw rs ra ∧ s.cfg.videoBase.toNat ≤ (s.reg ra).toNat ∧ e = s.memWrite (s.reg ra) (s.reg rs)) ∨
    (∀ rs ra, i = .sw rs ra → (s.reg ra).toNat < s.cfg.videoBase.toNat) ∧
      e.displayDirty = false ∧ e.events = s.events := by
  by_cases hvideo : ∃ rs ra, i = .sw rs ra ∧ s.cfg.videoBase.toNat ≤ (s.reg ra).toNat
  case pos =>
    obtain ⟨rs, ra, rfl, hle⟩ := hvideo
    rw [exec_sw] at h
    cases h
    exact .inl ⟨rs, ra, rfl, hle, rfl⟩
  case neg =>
    push Not at hvideo
    refine .inr ⟨hvideo, ?_⟩
    rcases exec_inversion h with rfl | ⟨r, v, -, rfl⟩ | ⟨rs, ra, hi, rfl⟩ | ⟨rd, rb, rc, -, -, rfl⟩
    case inr.inr.inl =>
      obtain ⟨hdirty, hevents⟩ := State.memWrite_devices_plain (v := s.reg rs) (hvideo rs ra hi)
      exact ⟨hdirty.trans hclean, hevents⟩
    all_goals exact ⟨hclean, rfl⟩

theorem State.videoSnapshot_length (s : State) : s.videoSnapshot.length = memWords - s.cfg.videoBase.toNat := by
  rw [State.videoSnapshot, List.length_map, List.length_range']

theorem State.videoSnapshot_getElem? (s : State) {i : Nat} (h : i < memWords - s.cfg.videoBase.toNat) :
    s.videoSnapshot[i]? = some (s.mem.read (s.cfg.videoBase.toNat + i)) := by
  rw [State.videoSnapshot_eq, List.getElem?_map, List.getElem?_range h]
  rfl

/-- The poll writes below the video region: the region is after the cycle what it was at the render (R172, R175). -/
theorem State.cycleEnd_videoSnapshot {e : State} (hwf : e.cfg.wf = true) (k : Option Word) (ks : List (Option Word)) :
    ((e.renderIfDirty.pollKeyboard k).withAnswers ks).videoSnapshot = e.videoSnapshot := by
  have hbase := (Cfg.wf_iff _).mp hwf
  have hkbd := kbdAddr_toNat hbase
  have hcfg : ((e.renderIfDirty.pollKeyboard k).withAnswers ks).cfg = e.cfg := by simp
  rw [State.videoSnapshot_eq, State.videoSnapshot_eq, hcfg]
  refine List.map_congr_left fun i _ => State.cycleEnd_read_of_not_delivered e ks (.inr ?_)
  omega

/-- The end of the cycle of a video store: its write, then the render of the region, which shows the stored word (R171,
R172). -/
theorem cycleEnd_of_videoStore {s t : State} {a v : Word} {k : Option Word} {ks : List (Option Word)}
    (hwf : s.cfg.wf = true) (hle : s.cfg.videoBase.toNat ≤ a.toNat)
    (ht : t = ((s.memWrite a v).renderIfDirty.pollKeyboard k).withAnswers ks) :
    t.events = s.events ++ [.videoWrite a v, .render t.videoSnapshot] ∧ t.mem.read a.toNat = v := by
  obtain ⟨hdirty, hevents⟩ := State.memWrite_devices_video (v := v) hle
  have hbase := (Cfg.wf_iff _).mp hwf
  have hkbd := kbdAddr_toNat hbase
  subst ht
  constructor
  · rw [State.cycleEnd_videoSnapshot (by rwa [State.memWrite_cfg]), State.renderIfDirty_dirty hdirty,
      State.withAnswers_events, State.pollKeyboard_events, State.setDirty_events, State.emit_events, hevents,
      List.append_assoc]
    rfl
  · rw [State.cycleEnd_read_of_not_delivered _ _ (.inr ?_), State.memWrite_mem]
    · exact Memory.read_write_self _ _ _
    · rw [State.memWrite_cfg]
      omega

/-- The events of a fetching step from a clean display: a video store's write and its render, whose snapshot is the
region after the step and shows the stored word; or none (R171, R172). -/
theorem step_events {s t : State} (hwf : s.cfg.wf = true) (hclean : s.displayDirty = false) (hf : s.fetches)
    (h : step s = .next t) :
    (∃ rs ra, decode (s.mem.read s.pc.toNat) = .sw rs ra ∧
      s.cfg.videoBase.toNat ≤ ((s.setPc (s.pc + 1)).reg ra).toNat ∧
      t.events = s.events ++ [.videoWrite ((s.setPc (s.pc + 1)).reg ra) ((s.setPc (s.pc + 1)).reg rs),
        .render t.videoSnapshot] ∧
      t.mem.read ((s.setPc (s.pc + 1)).reg ra).toNat = (s.setPc (s.pc + 1)).reg rs) ∨
    (∀ rs ra, decode (s.mem.read s.pc.toNat) = .sw rs ra →
      ((s.setPc (s.pc + 1)).reg ra).toNat < s.cfg.videoBase.toNat) ∧ t.events = s.events := by
  rcases step_inversion h with ⟨-, hp, -⟩ | ⟨-, ⟨rd, rb, rc, hi, -⟩, rfl⟩ | ⟨-, e, he, -, rfl⟩
  case inl => exact absurd hf.2 (by simp [hp])
  case inr.inl => exact .inr ⟨fun rs ra hsw => by simp [hi] at hsw, rfl⟩
  case inr.inr =>
    rcases exec_videoStore_or_clean he hclean with ⟨rs, ra, hi, hle, rfl⟩ | ⟨hno, hdirty, hevents⟩
    case inl => exact .inl ⟨rs, ra, hi, hle, cycleEnd_of_videoStore (s := s.setPc (s.pc + 1)) hwf hle rfl⟩
    case inr =>
      refine .inr ⟨hno, ?_⟩
      rw [State.renderIfDirty_clean hdirty]
      simp [hevents]

/-- A write and the render that shows it, added to a paired stream, leave it paired (R171, R172). -/
theorem pairedEvents_append {cfg : Cfg} {events : List Event} {a v : Word} {snapshot : List Word}
    (h : pairedEvents cfg events) (ha : cfg.videoBase.toNat ≤ a.toNat)
    (hlen : snapshot.length = memWords - cfg.videoBase.toNat)
    (hv : snapshot[a.toNat - cfg.videoBase.toNat]? = some v) :
    pairedEvents cfg (events ++ [.videoWrite a v, .render snapshot]) := by
  fun_induction pairedEvents cfg events with
  | case1 => exact ⟨ha, hlen, hv, trivial⟩
  | case2 b w shown rest ih =>
    obtain ⟨hb, hshown, hw, hrest⟩ := h
    exact ⟨hb, hshown, hw, ih hrest⟩
  | _ => exact h.elim

theorem step_pairedEvents {s t : State} (hinv : s.Inv) (hp : pairedEvents s.cfg s.events) (h : step s = .next t) :
    pairedEvents t.cfg t.events := by
  obtain ⟨-, hwf, -, hclean⟩ := hinv
  obtain ⟨hcfg, -⟩ := step_cfg_progLen h
  rcases step_cases h with ⟨-, -, rfl⟩ | ⟨hf, -⟩
  · exact hp
  · rcases step_events hwf hclean hf h with ⟨rs, ra, -, hle, hevents, hread⟩ | ⟨-, hevents⟩
    · rw [hevents, hcfg]
      refine pairedEvents_append hp hle (hcfg ▸ t.videoSnapshot_length) ?_
      have hlt : ((s.setPc (s.pc + 1)).reg ra).toNat < memWords := uval_lt _
      rw [← hcfg] at hle ⊢
      rw [t.videoSnapshot_getElem? (by omega), Nat.add_sub_cancel' hle, hread]
    · rwa [hevents, hcfg]

end Sys2Proof.Machine

namespace Sys2Proof.Proofs

open Sys2Proof.Machine

/-- Settles O41: memory, the run's constants and the display, each kept by every step. -/
theorem stepKeepsLegalState : Obligations.StepKeepsLegalState :=
  fun _ _ => step_inv

/-- Settles O44: a step appends nothing, or a video write and the render that shows it. -/
theorem stepKeepsEventsPaired : Obligations.StepKeepsEventsPaired :=
  fun _ _ => step_pairedEvents

/-- Settles O34: the events of a step, and the snapshot as the words of the region after it. -/
theorem renderFollowsVideoStore : Obligations.RenderFollowsVideoStore := by
  intro s t hinv hf h
  obtain ⟨-, hwf, -, hclean⟩ := hinv
  obtain ⟨hcfg, -⟩ := step_cfg_progLen h
  refine ⟨step_displayDirty h hclean, fun rs ra hi hle => ?store, fun hno => ?none⟩ <;>
    rcases step_events hwf hclean hf h with ⟨rs', ra', hi', hle', hevents, -⟩ | ⟨hno', hevents⟩
  case store.inl =>
    obtain ⟨rfl, rfl⟩ := Instr.sw.inj (hi.symm.trans hi')
    refine ⟨_, hevents, hcfg ▸ t.videoSnapshot_length, fun i hlt => ?_⟩
    rw [t.videoSnapshot_length] at hlt
    rw [t.videoSnapshot_getElem? hlt, hcfg]
  case store.inr => exact absurd hle (hno' rs ra hi).not_ge
  case none.inl => exact absurd hle' (hno rs' ra' hi').not_ge
  case none.inr => exact hevents

end Sys2Proof.Proofs
end

section
/-! Proofs about reset, loading and the runs of a loaded machine (spec/10_state.md section 7, 70_reset_and_hazards.md
section 1), and about the image file format. -/

namespace Sys2Proof

theorem imageFits_iff (base : Word) (len : Nat) : imageFits base len = true ↔ base.toNat + len ≤ 65536 :=
  decide_eq_true_iff

theorem Cfg.wf_iff_ne_zero (c : Cfg) : c.wf = true ↔ c.videoBase ≠ 0#16 := by
  rw [Cfg.wf_iff, Nat.one_le_iff_ne_zero, ne_eq, ne_eq, BitVec.toNat_eq]
  rfl

end Sys2Proof

namespace Sys2Proof.Machine

/-! Reset (R23 to R26). -/

/-- Reset writes the three init addresses into registers that hold 0. -/
theorem State.resetWith_eq (cfg : Cfg) :
    State.resetWith cfg =
      ((({ State.resetWith cfg with x := Vector.replicate 16 0#16 }).setReg 2 cfg.pcInit).setReg 4 cfg.spInit).setReg 5
        cfg.gpInit := rfl

theorem State.resetWith_reg (cfg : Cfg) (r : Reg) :
    (State.resetWith cfg).reg r =
      if r = 5 then cfg.gpInit else if r = 4 then cfg.spInit else if r = 2 then cfg.pcInit else 0#16 := by
  rw [State.resetWith_eq, State.setReg_reg, State.setReg_reg, State.setReg_reg]
  simp [State.reg]

theorem State.resetWith_inv {cfg : Cfg} (h : cfg.wf = true) : (State.resetWith cfg).Inv :=
  ⟨rfl, h, (imageFits_iff _ _).mpr cfg.pcInit.isLt.le, rfl⟩

/-! The loader (R190 to R193). -/

/-- What the loader accepts, and the state it then leaves (R192). -/
theorem resetAndLoad_eq_ok_iff {cfg : Cfg} {program data : List Word} {s : State} :
    resetAndLoad cfg program data = .ok s ↔
      (cfg.wf = true ∧ imageFits cfg.pcInit program.length = true ∧ imageFits cfg.gpInit data.length = true) ∧
        s = ((State.resetWith cfg).loadProgram program).loadData data := by
  unfold resetAndLoad
  split
  case isTrue h => simp [h]
  split
  case isTrue h => simp [h]
  split
  case isTrue h => simp [h]
  case isFalse hcfg hprogram hdata =>
    rw [Bool.not_eq_false] at hcfg hprogram hdata
    simp only [hcfg, hprogram, hdata, true_and, Except.ok.injEq, and_self]
    exact eq_comm

/-- The memory of a loaded machine: the program loaded into the empty memory, then the data (R191, R193). -/
theorem loaded_mem (cfg : Cfg) (program data : List Word) :
    (((State.resetWith cfg).loadProgram program).loadData data).mem =
      (Memory.loadAt [] cfg.pcInit.toNat program).loadAt cfg.gpInit.toNat data := rfl

/-- A loaded machine is legal (R192). -/
theorem resetAndLoad_inv {cfg : Cfg} {program data : List Word} {s : State}
    (h : resetAndLoad cfg program data = .ok s) : s.Inv := by
  obtain ⟨⟨hcfg, hprogram, hdata⟩, rfl⟩ := resetAndLoad_eq_ok_iff.mp h
  have hmem : ((State.resetWith cfg).loadProgram program).mem.wf = true :=
    Memory.wf_loadAt program rfl ((imageFits_iff _ _).mp hprogram)
  exact ⟨Memory.wf_loadAt data hmem ((imageFits_iff _ _).mp hdata), hcfg, hprogram, rfl⟩

end Sys2Proof.Machine

namespace Sys2Proof.Proofs

open Sys2Proof.Machine

/-- Settles O42: the empty program fits every address space, and the empty memory is canonical. -/
theorem resetIsLegal : Obligations.ResetIsLegal :=
  ⟨State.resetWith_inv (by decide), fun _ => State.resetWith_inv⟩

/-- Settles O45: the register file after reset, and the empty memory. -/
theorem resetValues : Obligations.ResetValues := by
  intro cfg
  refine ⟨rfl, rfl, rfl, rfl, fun r h2 h4 h5 => ?_, fun _ => rfl, rfl, rfl, rfl, rfl⟩
  rw [State.resetWith_reg, if_neg h5, if_neg h4, if_neg h2]

/-- Settles O9: with no program word the region is empty, so the halting check ends the first cycle. -/
theorem emptyProgramHaltsAtOnce : Obligations.EmptyProgramHaltsAtOnce := by
  intro cfg data answers s h
  obtain ⟨-, rfl⟩ := resetAndLoad_eq_ok_iff.mp h
  refine ⟨_, step_outside rfl ?_, rfl, rfl, rfl, fun _ => rfl, fun _ => rfl, ⟨rfl, rfl, rfl⟩, rfl⟩
  rw [State.inProgram_eq_false_iff]
  exact .inr le_rfl

/-- Settles O43: a loaded machine satisfies the invariant with no events, and every step keeps it. -/
theorem loadedRunsStayLegal : Obligations.LoadedRunsStayLegal := by
  intro cfg program data answers n s h
  refine runCycles_invariant
    (P := fun u => u.Inv ∧ u.cfg = cfg ∧ u.progLen = program.length ∧ pairedEvents cfg u.events)
    (fun u v hu hstep => ?step) n ?start
  case step =>
    obtain ⟨hinv, rfl, hlen, hpaired⟩ := hu
    obtain ⟨hcfg, hprog⟩ := step_cfg_progLen hstep
    exact ⟨step_inv hinv hstep, hcfg, hprog.trans hlen, hcfg ▸ step_pairedEvents hinv hpaired hstep⟩
  case start =>
    have hinv := resetAndLoad_inv h
    obtain ⟨-, rfl⟩ := resetAndLoad_eq_ok_iff.mp h
    exact ⟨hinv, rfl, rfl, trivial⟩

/-- Settles O47: the loader's checks as numbers, and the data read before the program and the program before zeros. -/
theorem resetAndLoadPlacesImages : Obligations.ResetAndLoadPlacesImages := by
  intro cfg program data
  simp only [resetAndLoad_eq_ok_iff, Cfg.wf_iff_ne_zero, imageFits_iff, exists_and_left, exists_eq, and_true, true_and]
  rintro s ⟨-, rfl⟩
  refine ⟨fun i hi => ?data, fun i hi hout => ?program, fun a hdata hprogram => ?zero, fun _ => rfl, ⟨rfl, rfl, rfl⟩,
    rfl, rfl, rfl⟩ <;> rw [loaded_mem]
  case data => exact Memory.read_loadAt_add _ _ hi
  case program =>
    rw [Memory.read_loadAt_of_outside _ hout]
    exact Memory.read_loadAt_add _ _ hi
  case zero =>
    rw [Memory.read_loadAt_of_outside _ hdata]
    exact Memory.read_loadAt_of_outside _ hprogram

end Sys2Proof.Proofs
end

section
/-! Proofs about the image file format (spec/70_reset_and_hazards.md section 1, R196): a word and its two bytes, and the
file pair of bytes by pair of bytes. -/

namespace Sys2Proof.Machine

/-- A word is its high byte before its low byte. -/
theorem bytes_append (w : Word) : w.extractLsb' 8 8 ++ w.extractLsb' 0 8 = w := by
  have hw := w.isLt
  apply BitVec.eq_of_toNat_eq
  rw [toNat_append_eq_add, BitVec.extractLsb'_toNat, BitVec.extractLsb'_toNat, Nat.shiftRight_eq_div_pow]
  omega

/-- The low byte of a word of two bytes. -/
theorem extractLsb'_append_low (hi lo : Byte) : (hi ++ lo).extractLsb' 0 8 = lo := by
  have hlo := lo.isLt
  apply BitVec.eq_of_toNat_eq
  rw [BitVec.extractLsb'_toNat, toNat_append_eq_add, Nat.shiftRight_zero]
  omega

/-- The high byte of a word of two bytes. -/
theorem extractLsb'_append_high (hi lo : Byte) : (hi ++ lo).extractLsb' 8 8 = hi := by
  have hhi := hi.isLt
  have hlo := lo.isLt
  apply BitVec.eq_of_toNat_eq
  rw [BitVec.extractLsb'_toNat, toNat_append_eq_add, Nat.shiftRight_eq_div_pow]
  omega

theorem fileOfWords_cons (w : Word) (words : List Word) :
    fileOfWords (w :: words) = w.extractLsb' 0 8 :: w.extractLsb' 8 8 :: fileOfWords words := rfl

theorem wordsOfFile_fileOfWords (words : List Word) : wordsOfFile (fileOfWords words) = .ok words := by
  induction words with
  | nil => rfl
  | cons w rest ih => rw [fileOfWords_cons, wordsOfFile, ih, bytes_append]

/-- Word `i` stands low byte first at bytes `2 * i` and `2 * i + 1` (R196). -/
theorem fileOfWords_getElem? {words : List Word} {i : Nat} {w : Word} (h : words[i]? = some w) :
    (fileOfWords words)[2 * i]? = some (w.extractLsb' 0 8) ∧
      (fileOfWords words)[2 * i + 1]? = some (w.extractLsb' 8 8) := by
  induction words generalizing i with
  | nil => simp at h
  | cons v rest ih =>
    cases i with
    | zero =>
      obtain rfl : v = w := by simpa using h
      exact ⟨rfl, rfl⟩
    | succ j => exact ih (by simpa using h)

/-- A file is refused exactly for its odd length (R196). -/
theorem wordsOfFile_eq_error_iff (bytes : List Byte) :
    wordsOfFile bytes = .error .oddLength ↔ bytes.length % 2 = 1 := by
  fun_induction wordsOfFile bytes with
  | case1 => simp
  | case2 => simp
  | case3 lo hi rest words h ih =>
    rw [h] at ih
    simpa [Nat.add_assoc] using ih
  | case4 lo hi rest e h ih =>
    rw [h] at ih
    simpa [Nat.add_assoc] using ih

theorem fileOfWords_of_wordsOfFile {bytes : List Byte} {words : List Word} (h : wordsOfFile bytes = .ok words) :
    fileOfWords words = bytes := by
  fun_induction wordsOfFile bytes generalizing words with
  | case1 => cases h; rfl
  | case2 => cases h
  | case3 lo hi rest tail htail ih =>
    cases h
    rw [fileOfWords_cons, ih htail, extractLsb'_append_low, extractLsb'_append_high]
  | case4 => cases h

end Sys2Proof.Machine

namespace Sys2Proof.Proofs

open Sys2Proof.Machine

/-- Settles O48: the file read pair by pair, and each word against its two bytes. -/
theorem imageFileRoundTrip : Obligations.ImageFileRoundTrip :=
  ⟨wordsOfFile_fileOfWords, fun _ _ _ => fileOfWords_getElem?, wordsOfFile_eq_error_iff,
    fun _ _ => fileOfWords_of_wordsOfFile⟩

end Sys2Proof.Proofs
end

section
/-! Proofs about labels (spec/30_encoding.md section 7, 70_reset_and_hazards.md section 2): a label defined twice, and a
branch on a label's address. -/

namespace Sys2Proof.Machine

/-- The symbol table fails for no other reason than a label defined twice (R70). -/
theorem symbolTable_error {address : Nat} {lines : List AsmLine} {e : AsmError}
    (h : symbolTable address lines = .error e) : e = .duplicateLabel := by
  induction lines generalizing address with
  | nil => cases h
  | cons l rest ih =>
    unfold symbolTable at h
    split at h
    case h_1 e' he =>
      cases h
      exact ih he
    case h_2 =>
      split at h
      case h_1 => cases h
      case h_2 => split at h <;> cases h; rfl

/-- In a symbol table that is made, two lines have two labels (R66, R70). -/
theorem symbolTable_label_ne {address : Nat} {lines : List AsmLine} {table : List (Token × Nat)} {j k : Nat}
    {l₁ l₂ : AsmLine} {name : Token} (h : symbolTable address lines = .ok table) (hjk : j < k)
    (hj : lines[j]? = some l₁) (hk : lines[k]? = some l₂) (h₁ : l₁.label = some name) : l₂.label ≠ some name := by
  intro h₂
  induction lines generalizing address table j k with
  | nil => simp at hj
  | cons l rest ih =>
    obtain ⟨later, hlater, htable⟩ := symbolTable_cons_ok h
    obtain ⟨k, rfl⟩ : ∃ k', k = k' + 1 := ⟨k - 1, by omega⟩
    rw [List.getElem?_cons_succ] at hk
    cases j with
    | succ j => exact ih hlater (Nat.lt_of_succ_lt_succ hjk) (by simpa using hj) hk
    | zero =>
      obtain rfl : l = l₁ := by simpa using hj
      have haddr := labelAddress_symbolTable hlater hk h₂
      rcases htable with ⟨hnone, -⟩ | ⟨m, hm, hnew, -⟩
      · simp [hnone] at h₁
      · obtain rfl : m = name := by simpa [hm] using h₁
        simp [hnew] at haddr

end Sys2Proof.Machine

namespace Sys2Proof.Proofs

open Sys2Proof.Machine

/-- Settles O53: the symbol table is not made, and it fails for that reason only. -/
theorem duplicateLabelIsFatal : Obligations.DuplicateLabelIsFatal := by
  intro pcInit lines j k l₁ l₂ name hjk hj hk h₁ h₂
  rw [assembleLines]
  cases h : symbolTable (uval pcInit) lines with
  | error e => rw [symbolTable_error h]
  | ok table => exact absurd h₂ (symbolTable_label_ne h hjk hj hk h₁)

/-- Settles O54: the target is the advanced pc plus the label's address. -/
theorem labelOnBranchMissesLabel : Obligations.LabelOnBranchMissesLabel := by
  intro ra rb s heq
  refine ⟨_, exec_taken_branch (.inl ⟨rfl, heq⟩), ?_⟩
  rw [State.setPc_pc]
  exact add_eq_right

end Sys2Proof.Proofs
end

section
/-! Proofs about what an instruction reads (spec/10_state.md section 1), and that nothing reads the keyboard flag or the
event stream (60_exceptions.md sections 7 and 8). -/

namespace Sys2Proof.Machine

/-! Two runs of one instruction: equal values written to the destination, and equal words stored, leave the same. -/

/-- What two states agree on after an instruction with destination `d`: the destination and memory. -/
def AgreeOnResult (d : Option Reg) (t₁ t₂ : State) : Prop :=
  (∀ r, d = some r → t₁.reg r = t₂.reg r) ∧ SameMemory t₁ t₂

theorem AgreeOnResult.setReg {s₁ s₂ : State} {v₁ v₂ : Word} (rd : Reg) (hm : SameMemory s₁ s₂) (hv : v₁ = v₂) :
    AgreeOnResult (some rd) (s₁.setReg rd v₁) (s₂.setReg rd v₂) := by
  subst hv
  refine ⟨fun r hr => ?_, hm⟩
  obtain rfl := Option.some.inj hr
  rw [State.setReg_reg_self, State.setReg_reg_self]

theorem AgreeOnResult.withResult {s₁ s₂ : State} (f : Word → Word → Word) (rd : Reg) {rb rc : Reg}
    (hm : SameMemory s₁ s₂) (hregs : ∀ q ∈ [rb, rc], s₁.reg q = s₂.reg q) :
    AgreeOnResult (some rd) (s₁.withResult f rd rb rc) (s₂.withResult f rd rb rc) :=
  AgreeOnResult.setReg rd hm (congrArg₂ f (hregs rb (by simp)) (hregs rc (by simp)))

theorem AgreeOnResult.memWrite {s₁ s₂ : State} {rs ra : Reg} (hm : SameMemory s₁ s₂)
    (hregs : ∀ q ∈ [rs, ra], s₁.reg q = s₂.reg q) :
    AgreeOnResult none (s₁.memWrite (s₁.reg ra) (s₁.reg rs)) (s₂.memWrite (s₂.reg ra) (s₂.reg rs)) := by
  refine ⟨fun r hr => (Option.some_ne_none r hr.symm).elim, fun a => ?_⟩
  rw [hregs rs (by simp), hregs ra (by simp), State.memWrite_mem, State.memWrite_mem, Memory.read_write,
    Memory.read_write, hm a]

theorem AgreeOnResult.branchIf {s₁ s₂ : State} {rc : Reg} (taken : Bool) (hm : SameMemory s₁ s₂)
    (hrc : s₁.reg rc = s₂.reg rc) (hpc : s₁.reg pcReg = s₂.reg pcReg) :
    AgreeOnResult (some pcReg) (s₁.branchIf taken rc) (s₂.branchIf taken rc) := by
  cases taken with
  | true =>
    refine AgreeOnResult.setReg pcReg hm ?_
    rw [State.branchTarget_eq, State.branchTarget_eq, State.pc, State.pc, hrc, hpc]
  | false => exact ⟨fun r hr => Option.some.inj hr ▸ hpc, hm⟩

/-- What an instruction leaves depends, among registers, on its sources only (R13, R83). -/
theorem exec_agreeOnResult {i : Instr} {s₁ s₂ t₁ t₂ : State} (hm : SameMemory s₁ s₂)
    (hregs : ∀ q ∈ sourceRegs i, s₁.reg q = s₂.reg q) (h₁ : exec i s₁ = .next t₁) (h₂ : exec i s₂ = .next t₂)
    (hrun : t₁.status = .running) : AgreeOnResult (destReg i) t₁ t₂ := by
  cases i with
  | nop => cases h₁; cases h₂; exact ⟨fun r hr => (Option.some_ne_none r hr.symm).elim, hm⟩
  | lw rd ra =>
    cases h₁; cases h₂
    refine AgreeOnResult.setReg rd hm ?_
    rw [State.load, State.load, State.effAddr, State.effAddr, hregs ra (by simp [sourceRegs])]
    exact (hm _).symm
  | sw rs ra => cases h₁; cases h₂; exact AgreeOnResult.memWrite hm hregs
  | beq ra rb rc | bne ra rb rc =>
    cases h₁; cases h₂
    rw [hregs ra (by simp [sourceRegs]), hregs rb (by simp [sourceRegs])]
    exact AgreeOnResult.branchIf _ hm (hregs rc (by simp [sourceRegs])) (hregs pcReg (by simp [sourceRegs]))
  | lui rd imm => cases h₁; cases h₂; exact AgreeOnResult.setReg rd hm rfl
  | ori rd imm =>
    cases h₁; cases h₂
    exact AgreeOnResult.setReg rd hm (congrArg (· ||| immLow imm) (hregs rd (by simp [sourceRegs])))
  | div rd rb rc =>
    have hrc : s₁.reg rc = s₂.reg rc := hregs rc (by simp [sourceRegs])
    by_cases hz : s₁.reg rc = 0#16
    · rw [exec_div_of_zero rd rb hz] at h₁
      cases h₁
      cases hrun
    · rw [exec_div_of_ne_zero rd rb hz] at h₁
      rw [exec_div_of_ne_zero rd rb (hrc ▸ hz)] at h₂
      cases h₁; cases h₂
      exact AgreeOnResult.withResult aluDiv rd hm hregs
  | _ => cases h₁; cases h₂; exact AgreeOnResult.withResult _ _ hm hregs

/-! The same state with another flag and another past stream. -/

/-- The state with another keyboard flag and other past events. -/
def State.withPast (s : State) (b : Bool) (past : List Event) : State := { s with keyboardHasChar := b, events := past }

/-- From `s` to `t` and from `s'` to `t'` the same happened: the same events were appended, and `t'` is `t` but for its
keyboard flag and its past events. -/
def AppendsAlike (s s' t t' : State) : Prop :=
  ∃ b new, t.events = s.events ++ new ∧ t' = t.withPast b (s'.events ++ new)

theorem AppendsAlike.trans {s s' t t' u u' : State} (h₁ : AppendsAlike s s' t t') (h₂ : AppendsAlike t t' u u') :
    AppendsAlike s s' u u' := by
  obtain ⟨b, new, ht, rfl⟩ := h₁
  obtain ⟨b', more, hu, rfl⟩ := h₂
  exact ⟨b', new ++ more, by rw [hu, ht, List.append_assoc], by rw [← List.append_assoc]; rfl⟩

/-- Where no event is appended and the flag is not set. -/
theorem AppendsAlike.of_events_eq {s t : State} (b : Bool) (past : List Event) (h : t.events = s.events) :
    AppendsAlike s (s.withPast b past) t (t.withPast b past) :=
  ⟨b, [], by rw [h, List.append_nil], by rw [List.append_nil]; rfl⟩

/-- What happens alike and then goes on alike happens alike. -/
theorem AppendsAlike.andThen {s s' e e' : State} {f : State → State} (h : AppendsAlike s s' e e')
    (hf : ∀ b past, AppendsAlike e (e.withPast b past) (f e) (f (e.withPast b past))) :
    AppendsAlike s s' (f e) (f e') := by
  obtain ⟨b, new, he, rfl⟩ := h
  exact AppendsAlike.trans ⟨b, new, he, rfl⟩ (hf b _)

/-- A store appends the same event, if any (R171). -/
theorem AppendsAlike.memWrite (s : State) (b : Bool) (past : List Event) (a v : Word) :
    AppendsAlike s (s.withPast b past) (s.memWrite a v) ((s.withPast b past).memWrite a v) := by
  cases h : inVideo s.cfg a with
  | true =>
    rw [State.memWrite_video h, State.memWrite_video (s := s.withPast b past) h]
    exact ⟨b, [.videoWrite a v], rfl, rfl⟩
  | false =>
    rw [State.memWrite_plain h, State.memWrite_plain (s := s.withPast b past) h]
    exact AppendsAlike.of_events_eq b past rfl

theorem AppendsAlike.branchIf (s : State) (b : Bool) (past : List Event) (taken : Bool) (rc : Reg) :
    AppendsAlike s (s.withPast b past) (s.branchIf taken rc) ((s.withPast b past).branchIf taken rc) := by
  cases taken <;> exact AppendsAlike.of_events_eq b past rfl

/-- A render appends the same snapshot (R172). -/
theorem AppendsAlike.renderIfDirty (s : State) (b : Bool) (past : List Event) :
    AppendsAlike s (s.withPast b past) s.renderIfDirty (s.withPast b past).renderIfDirty := by
  cases h : s.displayDirty with
  | true =>
    rw [State.renderIfDirty_dirty h, State.renderIfDirty_dirty (s := s.withPast b past) h]
    exact ⟨b, [.render s.videoSnapshot], rfl, rfl⟩
  | false =>
    rw [State.renderIfDirty_clean h, State.renderIfDirty_clean (s := s.withPast b past) h]
    exact AppendsAlike.of_events_eq b past rfl

/-- The poll sets the flag without reading it (R175). -/
theorem AppendsAlike.pollKeyboard (k : Option Word) (s : State) (b : Bool) (past : List Event) :
    AppendsAlike s (s.withPast b past) (s.pollKeyboard k) ((s.withPast b past).pollKeyboard k) := by
  refine ⟨k.isSome, [], ?_, ?_⟩
  · rw [State.pollKeyboard_events, List.append_nil]
  · rw [List.append_nil]
    cases k <;> rfl

theorem AppendsAlike.endCycle (k : Option Word) (s : State) (b : Bool) (past : List Event) :
    AppendsAlike s (s.withPast b past) (s.endCycle k) ((s.withPast b past).endCycle k) := by
  cases h : s.status with
  | running =>
    rw [State.endCycle_running k h, State.endCycle_running (s := s.withPast b past) k h]
    exact (AppendsAlike.renderIfDirty s b past).andThen (f := (State.pollKeyboard · k)) (AppendsAlike.pollKeyboard k _)
  | halted why =>
    rw [State.endCycle_halted k h, State.endCycle_halted (s := s.withPast b past) k h]
    exact AppendsAlike.of_events_eq b past rfl

theorem AppendsAlike.dropAnswer (s : State) (b : Bool) (past : List Event) :
    AppendsAlike s (s.withPast b past) s.dropAnswer (s.withPast b past).dropAnswer := by
  cases h : s.status with
  | running =>
    rw [State.dropAnswer_running h, State.dropAnswer_running (s := s.withPast b past) h]
    exact AppendsAlike.of_events_eq b past rfl
  | halted why =>
    rw [State.dropAnswer_halted h, State.dropAnswer_halted (s := s.withPast b past) h]
    exact AppendsAlike.of_events_eq b past rfl

/-- No instruction reads the flag or the event stream. -/
theorem exec_withPast {i : Instr} {s e : State} (b : Bool) (past : List Event) (h : exec i s = .next e) :
    ∃ e', exec i (s.withPast b past) = .next e' ∧ AppendsAlike s (s.withPast b past) e e' := by
  cases i with
  | sw rs ra => cases h; exact ⟨_, rfl, AppendsAlike.memWrite s b past _ _⟩
  | beq ra rb rc | bne ra rb rc => cases h; exact ⟨_, rfl, AppendsAlike.branchIf s b past _ rc⟩
  | div rd rb rc =>
    by_cases hz : s.reg rc = 0#16
    · rw [exec_div_of_zero rd rb hz] at h
      cases h
      exact ⟨_, exec_div_of_zero rd rb hz, AppendsAlike.of_events_eq b past rfl⟩
    · rw [exec_div_of_ne_zero rd rb hz] at h
      cases h
      exact ⟨_, exec_div_of_ne_zero rd rb hz, AppendsAlike.of_events_eq b past rfl⟩
  | _ => cases h; exact ⟨_, rfl, AppendsAlike.of_events_eq b past rfl⟩

/-- No step reads the flag or the event stream. -/
theorem step_withPast {s t : State} (b : Bool) (past : List Event) (h : step s = .next t) :
    ∃ t', step (s.withPast b past) = .next t' ∧ AppendsAlike s (s.withPast b past) t t' := by
  rcases step_cases h with ⟨hs, hp, rfl⟩ | ⟨hf, e, he, rfl⟩
  · exact ⟨_, step_outside (s := s.withPast b past) hs hp, AppendsAlike.of_events_eq b past rfl⟩
  · obtain ⟨e', he', halike⟩ := exec_withPast (s := s.advancePc) b past he
    have halike : AppendsAlike s (s.withPast b past) e e' := halike
    exact ⟨_, step_fetches (s := s.withPast b past) hf he',
      (halike.andThen (f := (State.endCycle · s.nextAnswer)) (AppendsAlike.endCycle _ e)).andThen
        (AppendsAlike.dropAnswer _)⟩

end Sys2Proof.Machine

namespace Sys2Proof.Proofs

open Sys2Proof.Machine

/-- Settles O32: the frame of `exec`, and its result from two states that agree on the sources. -/
theorem instructionsTouchNamedRegisters : Obligations.InstructionsTouchNamedRegisters :=
  ⟨fun _ _ _ _ => exec_reg_of_not_destReg,
    fun _ _ _ _ _ hm hregs h₁ h₂ _ hrun => exec_agreeOnResult hm hregs h₁ h₂ hrun⟩

/-- Settles O37: the step from the other past is the same step on another past stream. -/
theorem flagAndEventsAreUnread : Obligations.FlagAndEventsAreUnread := by
  intro s t b past h
  obtain ⟨_, hstep, b', new, hevents, rfl⟩ := step_withPast b past h
  exact ⟨_, new, hstep, hevents, rfl, fun _ => rfl, fun _ => rfl, ⟨rfl, rfl, rfl⟩, rfl, rfl⟩

end Sys2Proof.Proofs
end
